-- ==== Sys2Proof/Word.lean ====
section
/-! DEFINITION. The word types of HRC-TFE: bytes, 32-bit values and 64-bit command words (spec/00_scope.md R11, R20). -/

namespace Sys2Proof

/-- A byte is 8 bits (R20). -/
abbrev Byte := BitVec 8

/-- Response values and the ring-buffer registers are 32 bits wide (R11). -/
abbrev Word := BitVec 32

/-- A command word is 64 bits wide (R11, R101). -/
abbrev CmdWord := BitVec 64

end Sys2Proof
end

