-- ==== Sys2Proof/Syntax.lean ====
section
/-! DEFINITION. The command set: ports, transactions, opcodes and instructions (spec/30_encoding.md R100 to R105). -/

namespace Sys2Proof

/-- The two ports of the block (R104). -/
inductive Port where
  | producer
  | command
  deriving DecidableEq, Repr, Inhabited

/-- What one command brings to a port: its word and its payload (R100). -/
structure Txn where
  word : CmdWord
  payload : List Byte
  deriving DecidableEq, Repr

/-- The sixteen opcodes, in the order of R105. -/
inductive Opcode where
  | rbInit
  | rbReset
  | rbPush
  | rbPoll
  | rbPeek
  | rbLength
  | ckSum
  | ckValid
  | decTick
  | regRd
  | regWr
  | errSet
  | errClear
  | rflQuery
  | prcAdvance
  | prcReset
  deriving DecidableEq, Repr

/-- A command with its operands assembled as R103 says. The payload is an operand of the three commands that carry one. -/
inductive Instr where
  | rbInit (es : BitVec 16) (cap : Word)
  | rbReset
  | rbPush (count : Word) (payload : List Byte)
  | rbPoll (count : Word)
  | rbPeek
  | rbLength
  | ckSum (seed : BitVec 16) (len : BitVec 16) (payload : List Byte)
  | ckValid (seed : BitVec 16) (len : BitVec 16) (expected : BitVec 16) (payload : List Byte)
  | decTick
  | regRd (reg : BitVec 16)
  | regWr (reg : BitVec 16) (val : Word)
  | errSet (code : Byte)
  | errClear
  | rflQuery
  | prcAdvance
  | prcReset
  deriving DecidableEq, Repr

/-- Why a transaction is no instruction of its port. The first three are the cases of R107, answered ILLEGAL;
the last is R108's wrong payload length for a command that carries no payload, answered INVALID. -/
inductive DecodeError where
  /-- The opcode is not in R105. -/
  | unknownOpcode
  /-- RSV or a must-be-zero bit is 1. -/
  | reservedBits
  /-- The port does not accept the opcode (R104). -/
  | wrongPort
  /-- The word is the command `i`, which carries no payload, and the transaction brings one (R108). -/
  | strayPayload (i : Instr)
  deriving DecidableEq, Repr

end Sys2Proof
end

