-- ==== Sys2Proof/Config.lean ====
section
/-! DEFINITION. The parameters of spec/00_scope.md R10, the fixed constants, and the free values. -/

namespace Sys2Proof

/-- What RFL_QUERY does to a timer in 1..RFL_LO-1 (R10, R250). -/
inductive RflBelowLo where
  | hold
  | clear
  deriving DecidableEq, Repr

/-- The parameters of R10 that a rule reads. State carries them so that a statement about every state holds for
every argument value; no step changes them (log 1). -/
structure Params where
  /-- `RB_MAX_BYTES`, OPEN. -/
  rbMaxBytes : Nat
  /-- `NOISE_TH`, OPEN. -/
  noiseTh : BitVec 15
  /-- `SAFETY_TH`, OPEN. -/
  safetyTh : BitVec 15
  /-- `POS_SENTINEL`. -/
  posSentinel : BitVec 16
  /-- `STALL_LIMIT`. -/
  stallLimit : Nat
  /-- `RFL_HI`. -/
  rflHi : Word
  /-- `RFL_LO`. -/
  rflLo : Word
  /-- `RFL_BELOW_LO`. -/
  rflBelowLo : RflBelowLo
  /-- `CLOSED_TH_RST`. -/
  closedThRst : BitVec 16
  /-- `MID_TH_RST`. -/
  midThRst : BitVec 16
  /-- `OPEN_TH_RST`. -/
  openThRst : BitVec 16
  deriving DecidableEq, Repr

/-- The range R10 gives `RB_MAX_BYTES`. -/
abbrev Params.wf (p : Params) : Prop := 16 ≤ p.rbMaxBytes ∧ p.rbMaxBytes < 2 ^ 32 - 1

/-- The error kinds the source names (R253). -/
inductive ErrorKind where
  | none
  | invalidParameter
  | failedToStartMotor
  | overload
  | commandTimeout
  | invalidSequenceNumber
  | eStop
  | protectionActivated
  | motorJammed
  deriving DecidableEq, Repr

namespace Config

/-- `FRAME_LEN` (R10, R200). -/
def frameLen : Nat := 16

/-- `SYNC` (R10). -/
def sync : Byte := 0xFE

/-- `STALL_CNT_MAX` (R10, R52). -/
def stallCntMax : Nat := 255

/-- `LEN_FAIL` (R10, R147). -/
def lenFail : Word := 0xFFFFFFFF

/-- `RB_MAX_BYTES` less its least value 16. The type holds exactly the values R10 admits (log 1). -/
opaque storageBeyondMin : Fin 4294967279

/-- `NOISE_TH`, OPEN (I1, log 1). -/
opaque noiseTh : BitVec 15

/-- `SAFETY_TH`, OPEN (I2, log 1). -/
opaque safetyTh : BitVec 15

/-- The code of an error kind other than None, OPEN (I7, log 14). -/
opaque errCode : ErrorKind → Byte

/-- `ERR_CODE_MAP`: only None = 0 is fixed (R253, I7). -/
def errCodeMap : ErrorKind → Byte
  | .none => 0
  | k => errCode k

/-- Which port goes first when both can and no order is given: a fresh free value for each turn (R81, I15, log 5). -/
opaque freeTurn : Nat → Port

/-- The parameters of the machine at hand: the OPEN ones are opaque, the others have R10's values. -/
def params : Params where
  rbMaxBytes := storageBeyondMin.val + 16
  noiseTh := noiseTh
  safetyTh := safetyTh
  posSentinel := 0xFFFF
  stallLimit := 10
  rflHi := 1000
  rflLo := 500
  rflBelowLo := .hold
  closedThRst := 1
  midThRst := 13393
  openThRst := 17967

/-- The example arguments of spec/95_test_vectors.md, for tests only. -/
def exampleParams : Params :=
  { params with rbMaxBytes := 4096, noiseTh := 5, safetyTh := 1000 }

end Config

end Sys2Proof
end

