-- ==== Sys2Proof/WellFormed.lean ====
section
/-! DEFINITION. Well-formed instructions: the payload has the length spec/30_encoding.md R108 fixes. Every other
operand has exactly the width of its field, so no other check is needed. -/

namespace Sys2Proof

/-- The number of payload bytes of a transaction of `i` when elements are `es` bytes long (R108). -/
def Instr.payloadBytes (es : BitVec 16) : Instr → Nat
  | .rbPush count _ => count.toNat * es.toNat
  | .ckSum _ len _ => len.toNat
  | .ckValid _ len _ _ => len.toNat
  | .rbInit _ _ => 0
  | .rbReset => 0
  | .rbPoll _ => 0
  | .rbPeek => 0
  | .rbLength => 0
  | .decTick => 0
  | .regRd _ => 0
  | .regWr _ _ => 0
  | .errSet _ => 0
  | .errClear => 0
  | .rflQuery => 0
  | .prcAdvance => 0
  | .prcReset => 0

/-- The payload an instruction carries; empty for the thirteen commands that carry none (R100). -/
def Instr.payload : Instr → List Byte
  | .rbPush _ payload => payload
  | .ckSum _ _ payload => payload
  | .ckValid _ _ _ payload => payload
  | .rbInit _ _ => []
  | .rbReset => []
  | .rbPoll _ => []
  | .rbPeek => []
  | .rbLength => []
  | .decTick => []
  | .regRd _ => []
  | .regWr _ _ => []
  | .errSet _ => []
  | .errClear => []
  | .rflQuery => []
  | .prcAdvance => []
  | .prcReset => []

/-- `i` is a transaction the byte form of R102 can carry on a buffer with element size `es`. -/
def Instr.wellFormed (es : BitVec 16) (i : Instr) : Bool :=
  i.payload.length == i.payloadBytes es

end Sys2Proof
end

