-- ==== Sys2Proof/Decode.lean ====
section
/-! DEFINITION. The decoder of command words, total on every port and every 64-bit word, and the encoder
(spec/30_encoding.md R101 to R114). -/

namespace Sys2Proof

/-! ### Byte order -/

/-- The low `n` bytes of `v`, least significant first (R73, R102). -/
def toLE : Nat → Nat → List Byte
  | 0, _ => []
  | n + 1, v => BitVec.ofNat 8 v :: toLE n (v / 256)

/-- The value of bytes given least significant first (R20, R73). -/
def ofLE : List Byte → Nat
  | [] => 0
  | b :: bs => b.toNat + 256 * ofLE bs

/-! ### The opcode map -/

/-- The OPC value of an opcode (R105). -/
def Opcode.code : Opcode → Byte
  | .rbInit => 0x10
  | .rbReset => 0x11
  | .rbPush => 0x12
  | .rbPoll => 0x13
  | .rbPeek => 0x14
  | .rbLength => 0x15
  | .ckSum => 0x20
  | .ckValid => 0x21
  | .decTick => 0x30
  | .regRd => 0x40
  | .regWr => 0x41
  | .errSet => 0x42
  | .errClear => 0x43
  | .rflQuery => 0x44
  | .prcAdvance => 0x45
  | .prcReset => 0x46

/-- The opcodes of R105. -/
def Opcode.all : List Opcode :=
  [.rbInit, .rbReset, .rbPush, .rbPoll, .rbPeek, .rbLength, .ckSum, .ckValid, .decTick, .regRd, .regWr, .errSet,
    .errClear, .rflQuery, .prcAdvance, .prcReset]

/-- The opcode of an OPC value, if R105 lists it. -/
def Opcode.ofCode (c : Byte) : Option Opcode :=
  Opcode.all.find? fun op => op.code == c

/-- The MASK column of R106. -/
def Opcode.mask : Opcode → CmdWord
  | .rbInit => 0xFF0000FF00000000
  | .rbReset => 0xFFFFFFFFFFFFFFFF
  | .rbPush => 0xFFFFFFFF00000000
  | .rbPoll => 0xFFFFFFFF00000000
  | .rbPeek => 0xFFFFFFFFFFFFFFFF
  | .rbLength => 0xFFFFFFFFFFFFFFFF
  | .ckSum => 0xFF0000FF0000FFFF
  | .ckValid => 0xFF0000FF00000000
  | .decTick => 0xFFFFFFFFFFFFFFFF
  | .regRd => 0xFF0000FFFFFFFFFF
  | .regWr => 0xFF0000FF00000000
  | .errSet => 0xFFFFFFFFFFFFFF00
  | .errClear => 0xFFFFFFFFFFFFFFFF
  | .rflQuery => 0xFFFFFFFFFFFFFFFF
  | .prcAdvance => 0xFFFFFFFFFFFFFFFF
  | .prcReset => 0xFFFFFFFFFFFFFFFF

/-- The MATCH column of R106: `op << 56`. -/
def Opcode.matchWord (op : Opcode) : CmdWord := op.code.setWidth 64 <<< 56

/-- The port that accepts an opcode (R104). -/
def Opcode.port : Opcode → Port
  | .rbPush => .producer
  | .rbInit => .command
  | .rbReset => .command
  | .rbPoll => .command
  | .rbPeek => .command
  | .rbLength => .command
  | .ckSum => .command
  | .ckValid => .command
  | .decTick => .command
  | .regRd => .command
  | .regWr => .command
  | .errSet => .command
  | .errClear => .command
  | .rflQuery => .command
  | .prcAdvance => .command
  | .prcReset => .command

/-- Whether a transaction of the opcode carries a payload (R100, R105). -/
def Opcode.takesPayload : Opcode → Bool
  | .rbPush => true
  | .ckSum => true
  | .ckValid => true
  | .rbInit => false
  | .rbReset => false
  | .rbPoll => false
  | .rbPeek => false
  | .rbLength => false
  | .decTick => false
  | .regRd => false
  | .regWr => false
  | .errSet => false
  | .errClear => false
  | .rflQuery => false
  | .prcAdvance => false
  | .prcReset => false

/-! ### The fields of format W (R101) -/

/-- OPC, bits 63:56. -/
def fieldOPC (w : CmdWord) : Byte := w.extractLsb' 56 8

/-- X, bits 55:40. -/
def fieldX (w : CmdWord) : BitVec 16 := w.extractLsb' 40 16

/-- RSV, bits 39:32. -/
def fieldRSV (w : CmdWord) : Byte := w.extractLsb' 32 8

/-- Y, bits 31:0. -/
def fieldY (w : CmdWord) : Word := w.extractLsb' 0 32

/-- LEN, Y[31:16] (R103). -/
def fieldLEN (w : CmdWord) : BitVec 16 := w.extractLsb' 16 16

/-- EXP, Y[15:0] (R103). -/
def fieldEXP (w : CmdWord) : BitVec 16 := w.extractLsb' 0 16

/-- CODE, Y[7:0] (R103). -/
def fieldCODE (w : CmdWord) : Byte := w.extractLsb' 0 8

/-! ### The decoder -/

/-- Operand assembly (R103). -/
def operands (op : Opcode) (w : CmdWord) (payload : List Byte) : Instr :=
  match op with
  | .rbInit => .rbInit (fieldX w) (fieldY w)
  | .rbReset => .rbReset
  | .rbPush => .rbPush (fieldY w) payload
  | .rbPoll => .rbPoll (fieldY w)
  | .rbPeek => .rbPeek
  | .rbLength => .rbLength
  | .ckSum => .ckSum (fieldX w) (fieldLEN w) payload
  | .ckValid => .ckValid (fieldX w) (fieldLEN w) (fieldEXP w) payload
  | .decTick => .decTick
  | .regRd => .regRd (fieldX w)
  | .regWr => .regWr (fieldX w) (fieldY w)
  | .errSet => .errSet (fieldCODE w)
  | .errClear => .errClear
  | .rflQuery => .rflQuery
  | .prcAdvance => .prcAdvance
  | .prcReset => .prcReset

/-- The decode function of a port (R114), with the payload check of R108 for the commands that carry none. -/
def decode (port : Port) (w : CmdWord) (payload : List Byte) : Except DecodeError Instr :=
  match Opcode.ofCode (fieldOPC w) with
  | none => .error .unknownOpcode
  | some op =>
    if w &&& op.mask ≠ op.matchWord then .error .reservedBits
    else if port ≠ op.port then .error .wrongPort
    else if op.takesPayload = false ∧ payload ≠ [] then .error (.strayPayload (operands op w []))
    else .ok (operands op w payload)

/-! ### The encoder -/

/-- Format W from its fields, RSV zero (R101). -/
def wordW (op : Opcode) (x : BitVec 16) (y : Word) : CmdWord := op.code ++ x ++ (0 : Byte) ++ y

/-- The opcode of an instruction. -/
def Instr.opcode : Instr → Opcode
  | .rbInit _ _ => .rbInit
  | .rbReset => .rbReset
  | .rbPush _ _ => .rbPush
  | .rbPoll _ => .rbPoll
  | .rbPeek => .rbPeek
  | .rbLength => .rbLength
  | .ckSum _ _ _ => .ckSum
  | .ckValid _ _ _ _ => .ckValid
  | .decTick => .decTick
  | .regRd _ => .regRd
  | .regWr _ _ => .regWr
  | .errSet _ => .errSet
  | .errClear => .errClear
  | .rflQuery => .rflQuery
  | .prcAdvance => .prcAdvance
  | .prcReset => .prcReset

/-- The command word of an instruction (R101, R103, R105). -/
def encodeWord : Instr → CmdWord
  | .rbInit es cap => wordW .rbInit es cap
  | .rbReset => wordW .rbReset 0 0
  | .rbPush count _ => wordW .rbPush 0 count
  | .rbPoll count => wordW .rbPoll 0 count
  | .rbPeek => wordW .rbPeek 0 0
  | .rbLength => wordW .rbLength 0 0
  | .ckSum seed len _ => wordW .ckSum seed (len ++ (0 : BitVec 16))
  | .ckValid seed len expected _ => wordW .ckValid seed (len ++ expected)
  | .decTick => wordW .decTick 0 0
  | .regRd reg => wordW .regRd reg 0
  | .regWr reg val => wordW .regWr reg val
  | .errSet code => wordW .errSet 0 (code.setWidth 32)
  | .errClear => wordW .errClear 0 0
  | .rflQuery => wordW .rflQuery 0 0
  | .prcAdvance => wordW .prcAdvance 0 0
  | .prcReset => wordW .prcReset 0 0

/-- The transaction of an instruction (R100). -/
def encode (i : Instr) : Txn := ⟨encodeWord i, i.payload⟩

/-- The port an instruction is sent to (R104). -/
def Instr.port (i : Instr) : Port := i.opcode.port

/-! ### Transactions as bytes (R102) -/

/-- The word in little-endian order, then the payload. -/
def Txn.bytes (t : Txn) : List Byte := toLE 8 t.word.toNat ++ t.payload

/-- How many payload bytes follow the word when elements are `es` bytes long (R108). A word that is no command
has none. The element size is needed for RB_PUSH alone (log 13). -/
def impliedPayloadBytes (es : BitVec 16) (w : CmdWord) : Nat :=
  match Opcode.ofCode (fieldOPC w) with
  | none => 0
  | some op => (operands op w []).payloadBytes es

/-- The first transaction of a byte stream and the bytes after it. -/
def readTxn (es : BitVec 16) (bs : List Byte) : Option (Txn × List Byte) :=
  if bs.length < 8 then none
  else
    let w : CmdWord := BitVec.ofNat 64 (ofLE (bs.take 8))
    let n := impliedPayloadBytes es w
    let rest := bs.drop 8
    if rest.length < n then none else some (⟨w, rest.take n⟩, rest.drop n)

/-! ### Words of the opcode table -/

/-- The command word whose bits, numbered as the opcode table numbers them, are the low `nbits` bits of `w`. -/
def tableWord (nbits w : Nat) : CmdWord := BitVec.ofNat 64 (w % 2 ^ nbits)

/-- The port that accepts the word's opcode; the command port for a word that is no command. -/
def portOfWord (w : CmdWord) : Port :=
  match Opcode.ofCode (fieldOPC w) with
  | none => .command
  | some op => op.port

/-- The transaction of a table word: every payload byte is zero. -/
def tableTxn (es : BitVec 16) (nbits w : Nat) : Txn :=
  ⟨tableWord nbits w, List.replicate (impliedPayloadBytes es (tableWord nbits w)) 0⟩

/-- The instruction the decoder reads from a table word on the port that accepts it. Before RB_INIT the element
size is 0 (R37), so a push then carries no payload byte. -/
def decodeTableWord (nbits w : Nat) : Option Instr :=
  match decode (portOfWord (tableWord nbits w)) (tableWord nbits w) (tableTxn 0 nbits w).payload with
  | .ok i => some i
  | .error _ => none

end Sys2Proof
end

