-- ==== Sys2Proof/Machine/State.lean ====
section
/-! DEFINITION. The state of HRC-TFE as plain data, its reset values, and the reasons a step can stop
(spec/10_state.md R30 to R59, spec/70_reset_and_hazards.md R310). -/

namespace Sys2Proof.Machine

/-- The status of a response (R280). These seven are all there are. -/
inductive Status where
  | ok
  | invalid
  | overflow
  | underrun
  | empty
  | uninit
  | illegal
  deriving DecidableEq, Repr

/-- A response (R109). -/
structure Response where
  status : Status
  value : Word
  data : List Byte
  deriving DecidableEq, Repr

/-- The storage `MEM`: the bytes that have a value, by offset (R70). An offset that is not listed has no value
(R310, log 8). -/
abbrev Memory := List Host.Cell

/-- The one form of a memory: offsets strictly rising. Unlisted offsets have no value, so no entry can equal one. -/
abbrev Memory.wf (m : Memory) : Prop := m.Pairwise fun x y => x.1 < y.1

/-- The ring-buffer registers of unit RB. -/
structure RbRegs where
  /-- `RB_WR_IDX` (R32). -/
  wrIdx : Word
  /-- `RB_RD_IDX` (R33). -/
  rdIdx : Word
  /-- `RB_FULL` (R34). -/
  full : Bool
  /-- `RB_INIT` (R35). -/
  init : Bool
  /-- `RB_CAP` (R36). -/
  cap : Word
  /-- `RB_ES` (R37). -/
  es : BitVec 16
  deriving DecidableEq, Repr

/-- The telemetry registers of unit DEC. -/
structure DecRegs where
  /-- `TLM_TYPE` (R40). -/
  tlmType : Byte
  /-- `TLM_VOLTAGE` (R41). -/
  tlmVoltage : BitVec 16
  /-- `TLM_CURRENT`, two's complement (R42). -/
  tlmCurrent : BitVec 16
  /-- `TLM_POSITION` (R43). -/
  tlmPosition : BitVec 16
  /-- `PREV_POSITION` (R44). -/
  prevPosition : BitVec 16
  /-- `TLM_ERR_RAW` (R45). -/
  tlmErrRaw : Byte
  /-- `ERR_LATCH` (R46). -/
  errLatch : Byte
  /-- `TLM_SEQ` (R47). -/
  tlmSeq : BitVec 3
  /-- `TLM_PARAM_ID` (R48). -/
  tlmParamId : BitVec 4
  /-- `TLM_PARAM_DATA` (R49). -/
  tlmParamData : Word
  /-- `RFL_TIMER` (R50). -/
  rflTimer : Word
  /-- `VELOCITY` (R51). -/
  velocity : BitVec 15
  /-- `STALL_CNT` (R52). -/
  stallCnt : Byte
  deriving DecidableEq, Repr

/-- The configuration registers. -/
structure CfgRegs where
  /-- `CFG_CLOSED_TH` (R53). -/
  closedTh : BitVec 16
  /-- `CFG_MID_TH` (R54). -/
  midTh : BitVec 16
  /-- `CFG_OPEN_TH` (R55). -/
  openTh : BitVec 16
  /-- `CFG_IGNORE_PROT` (R56). -/
  ignoreProt : Bool
  deriving DecidableEq, Repr

/-- The three counts of a DEC_TICK in progress (R204). They are local to the command (log 6). -/
structure TickCounts where
  disc : Nat
  drop : Nat
  acc : Nat
  deriving DecidableEq, Repr

/-- The state: the registers and the storage of R30, the parameters of R10, and the model's own fields for the two
ports (log 3 to 6). -/
structure State where
  rb : RbRegs
  mem : Memory
  dec : DecRegs
  cfg : CfgRegs
  /-- `PRC` (R57). -/
  prc : BitVec 2
  /-- The parameters; no step changes them (log 1). -/
  params : Params
  /-- The DEC_TICK the command port is working on, between two of its iterations (R213, log 6). -/
  tick : Option TickCounts
  /-- The commands waiting at the command port, in arrival order (R31, log 3). -/
  cmdIn : List Txn
  /-- The commands waiting at the producer port, in arrival order (R31, log 3). -/
  prodIn : List Txn
  /-- The responses the command port has given, newest first (R109, log 4). -/
  cmdOut : List Response
  /-- The responses the producer port has given, newest first (R109, log 4). -/
  prodOut : List Response
  /-- Which port commits first at the coming steps at which both can (R81, log 5). -/
  turns : List Port
  /-- How many turns have been taken from the free value because `turns` was used up (log 5). -/
  freeTurns : Nat
  deriving DecidableEq, Repr

/-- The machine stops. No fault is the spec's (R283): each names an access the spec says cannot happen. -/
inductive Fault where
  /-- An access of MEM at or above `RB_MAX_BYTES`, which R22 says never happens. Raised by memRead and memWrite, for
  RB_INIT, RB_PUSH, RB_POLL, RB_PEEK and decoder iterations, in states no run reaches. Safe (log 9). -/
  | memOutOfRange
  /-- A read of a byte of MEM that nothing has written since power-on, to which R310 gives no value. Raised by
  memRead, for RB_POLL, RB_PEEK and decoder iterations, in states no run reaches. Safe (log 8). -/
  | memUnspecified
  deriving DecidableEq, Repr

/-- The model has no meaning for the instruction. -/
inductive Refusal where
  /-- Raised by an arm of exec whose instruction has no meaning yet. Safe. -/
  | notModelled (mnemonic : String)
  deriving DecidableEq, Repr

/-- Power-on reset with the parameters as argument (R310, the reset column of R59). No command waits and no response
has been given (log 3 to 6). -/
def State.powerOn (p : Params) : State where
  rb := { wrIdx := 0, rdIdx := 0, full := false, init := false, cap := 0, es := 0 }
  mem := []
  dec :=
    { tlmType := 0, tlmVoltage := 0, tlmCurrent := 0, tlmPosition := p.posSentinel, prevPosition := p.posSentinel,
      tlmErrRaw := 0, errLatch := 0, tlmSeq := 0, tlmParamId := 0, tlmParamData := 0, rflTimer := 0, velocity := 0,
      stallCnt := 0 }
  cfg := { closedTh := p.closedThRst, midTh := p.midThRst, openTh := p.openThRst, ignoreProt := false }
  prc := 0
  params := p
  tick := none
  cmdIn := []
  prodIn := []
  cmdOut := []
  prodOut := []
  turns := []
  freeTurns := 0

/-- The machine right after reset, with the parameters of Config. -/
def State.reset : State := State.powerOn Config.params

end Sys2Proof.Machine
end

