-- ==== Sys2Proof/Machine/Ops.lean ====
section
/-! DEFINITION. The shared operations: responses, storage access, ring-buffer arithmetic and transfers, and the
error latch. A failing command is `fail`, the block's one stand-in for taking an exception (spec/60_exceptions.md
R282, R283); nothing is entered, so nothing is returned from (R284). -/

namespace Sys2Proof.Machine

/-- What a meaning and a step answer. -/
abbrev Result := Host.Outcome State Fault Refusal

/-! ### Responses -/

/-- `respond(status, value, data)` on a port (R23, R109). -/
def respond (p : Port) (st : Status) (value : Word) (data : List Byte) (s : State) : State :=
  match p with
  | .producer => { s with prodOut := ⟨st, value, data⟩ :: s.prodOut }
  | .command => { s with cmdOut := ⟨st, value, data⟩ :: s.cmdOut }

/-- `fail S`: the response is the status alone and no other state changes (R23, R282). -/
def fail (p : Port) (st : Status) (s : State) : State := respond p st 0 [] s

/-- The code of a status (R280). -/
def Status.code : Status → Byte
  | .ok => 0x00
  | .invalid => 0x01
  | .overflow => 0x02
  | .underrun => 0x03
  | .empty => 0x04
  | .uninit => 0x05
  | .illegal => 0x06

/-- A response in byte form (R110). -/
def Response.bytes (r : Response) : List Byte := r.status.code :: toLE 4 r.value.toNat ++ r.data

/-! ### Storage -/

/-- The byte at one offset, if it has a value. -/
def Memory.read : Memory → Nat → Option Byte
  | [], _ => none
  | (a, b) :: m, x => if a = x then some b else Memory.read m x

/-- Bytes at consecutive offsets, ascending. -/
def cellsFrom : Nat → List Byte → Memory
  | _, [] => []
  | off, b :: bs => (off, b) :: cellsFrom (off + 1) bs

/-- Memory with `bs` stored at `off` and the offsets after it; every other offset keeps its value. -/
def Memory.write (m : Memory) (off : Nat) (bs : List Byte) : Memory :=
  m.filter (fun c => c.1 < off) ++ cellsFrom off bs ++ m.filter (fun c => off + bs.length ≤ c.1)

/-- The `n` bytes from `off` on. A byte without a value stops the read (R310, log 8). -/
def readRun (m : Memory) : Nat → Nat → Except Fault (List Byte)
  | _, 0 => .ok []
  | off, n + 1 =>
    match m.read off with
    | none => .error .memUnspecified
    | some b =>
      match readRun m (off + 1) n with
      | .error e => .error e
      | .ok bs => .ok (b :: bs)

/-- `MemRead(off, n)` (R22). -/
def memRead (s : State) (off n : Nat) : Except Fault (List Byte) :=
  if n ≠ 0 ∧ s.params.rbMaxBytes < off + n then .error .memOutOfRange else readRun s.mem off n

/-- `MemWrite(off, n, bytes)`, where n is the number of bytes (R22). -/
def memWrite (s : State) (off : Nat) (bs : List Byte) : Except Fault State :=
  if bs ≠ [] ∧ s.params.rbMaxBytes < off + bs.length then .error .memOutOfRange
  else .ok { s with mem := s.mem.write off bs }

/-! ### Ring-buffer arithmetic (R39, R140): exact, never wrapping at 32 bits -/

/-- `N`, the bytes in use. -/
def RbRegs.bytesInUse (r : RbRegs) : Nat := r.cap.toNat * r.es.toNat

/-- `occ()`, the occupied byte count. -/
def RbRegs.occ (r : RbRegs) : Nat :=
  if r.full then r.bytesInUse else (((r.wrIdx.toNat : Int) - r.rdIdx.toNat) % r.bytesInUse).toNat

/-- `length()`, the occupied length in elements. -/
def RbRegs.length (r : RbRegs) : Nat := r.occ / r.es.toNat

/-- `free()`, in elements. -/
def RbRegs.free (r : RbRegs) : Nat := r.cap.toNat - r.length

/-- `(idx + n) mod N`, the one way an index moves (R140, R148). -/
def RbRegs.advance (r : RbRegs) (idx : Word) (n : Nat) : Word :=
  BitVec.ofNat 32 ((idx.toNat + n) % r.bytesInUse)

/-! ### Wrap-split transfers (R142) -/

/-- `CopyIn`: the tail segment from the write index to the end, then the wrapped head segment. -/
def copyIn (s : State) (bs : List Byte) : Except Fault State :=
  let t := min bs.length (s.rb.bytesInUse - s.rb.wrIdx.toNat)
  match memWrite s s.rb.wrIdx.toNat (bs.take t) with
  | .error e => .error e
  | .ok s' => memWrite s' 0 (bs.drop t)

/-- `CopyOut`: `n` bytes from the read index on, wrapping at N. -/
def copyOut (s : State) (n : Nat) : Except Fault (List Byte) :=
  let t := min n (s.rb.bytesInUse - s.rb.rdIdx.toNat)
  match memRead s s.rb.rdIdx.toNat t with
  | .error e => .error e
  | .ok tail =>
    match memRead s 0 (n - t) with
    | .error e => .error e
    | .ok head => .ok (tail ++ head)

/-- The success path of RB_POLL for `n` bytes: copy out, clear the full flag, advance the read index (R144, R205). -/
def consume (s : State) (n : Nat) : Except Fault (List Byte × State) :=
  match copyOut s n with
  | .error e => .error e
  | .ok out => .ok (out, { s with rb := { s.rb with full := false, rdIdx := s.rb.advance s.rb.rdIdx n } })

/-! ### The error latch -/

/-- `setError`: the first error wins, and code 0 changes nothing (R207). -/
def setError (code : Byte) (d : DecRegs) : DecRegs :=
  if d.errLatch = 0 then { d with errLatch := code } else d

end Sys2Proof.Machine
end

