-- ==== Sys2Proof/Machine/Checksum.lean ====
section
/-! DEFINITION. The Fletcher-16 function and the commands of unit CK, which hold no state (spec/41_checksum.md). -/

namespace Sys2Proof.Machine

/-- One byte of Fletcher-16 on the accumulators c0 and c1 (R180). -/
def fletcherByte (c : Nat × Nat) (b : Byte) : Nat × Nat :=
  let c0 := (c.1 + b.toNat) % 255
  (c0, (c.2 + c0) % 255)

/-- The accumulators after a byte sequence. -/
def fletcherRun (c : Nat × Nat) : List Byte → Nat × Nat
  | [] => c
  | b :: bs => fletcherRun (fletcherByte c b) bs

/-- `fletcher16(data, len, seed)` with len the number of bytes: the seed is loaded as is (R180, R181). -/
def fletcher16 (data : List Byte) (seed : BitVec 16) : BitVec 16 :=
  let c := fletcherRun ((seed.extractLsb' 0 8).toNat, (seed.extractLsb' 8 8).toNat) data
  BitVec.ofNat 8 c.2 ++ BitVec.ofNat 8 c.1

/-- CK_SUM (R183). -/
def execCkSum (seed : BitVec 16) (len : BitVec 16) (payload : List Byte) (s : State) : Result :=
  if payload.length ≠ len.toNat then .next (fail .command .invalid s)
  else .next (respond .command .ok ((fletcher16 payload seed).setWidth 32) [] s)

/-- CK_VALID (R184). A mismatch is value 0 with status OK. -/
def execCkValid (seed : BitVec 16) (len : BitVec 16) (expected : BitVec 16) (payload : List Byte) (s : State) : Result :=
  if payload.length ≠ len.toNat then .next (fail .command .invalid s)
  else .next (respond .command .ok (if fletcher16 payload seed = expected then 1 else 0) [] s)

end Sys2Proof.Machine
end

