-- ==== Sys2Proof/Machine/Flags.lean ====
section
/-! DEFINITION. The derived signals, functions of the state recomputed at every read (spec/10_state.md R58,
spec/43_telemetry_status.md R240 to R245). -/

namespace Sys2Proof.Machine

/-- A flag as the low bit of a 32-bit value. -/
def bit (b : Bool) : Word := if b then 1 else 0

/-- The numeric position, bits 14..0 of a position field (R25). -/
def numericPos (p : BitVec 16) : BitVec 15 := p.extractLsb' 0 15

/-- The end-of-stroke flag, bit 15 of a position field (R43). -/
def endOfStroke (p : BitVec 16) : Bool := p.getLsbD 15

/-- `STOPPED` (R240). -/
def stopped (s : State) : Bool := decide (s.params.stallLimit < s.dec.stallCnt.toNat)

/-- `AT_END_STROKE` (R241). -/
def atEndStroke (s : State) : Bool := endOfStroke s.dec.tlmPosition && !s.cfg.ignoreProt && stopped s

/-- `PROT_TRIGGERED` (R242). -/
def protTriggered (s : State) : Bool :=
  atEndStroke s && decide (s.params.safetyTh.toNat < (numericPos s.dec.tlmPosition).toNat)

/-- The HookState names (R243). -/
inductive HookState where
  | uninitialized
  | closed
  | partiallyClosed
  | mid
  | partiallyOpen
  | openState
  | error
  deriving DecidableEq, Repr

/-- The HookState codes (R243). -/
def hookCode : HookState → BitVec 3
  | .uninitialized => 0
  | .closed => 1
  | .partiallyClosed => 2
  | .mid => 3
  | .partiallyOpen => 4
  | .openState => 5
  | .error => 6

/-- `hookState(P)`, evaluated top to bottom; comparisons are unsigned on the numeric position (R244). -/
def hookState (sentinel : BitVec 16) (c : CfgRegs) (pos : BitVec 16) : HookState :=
  let p := (numericPos pos).toNat
  if pos = sentinel then .uninitialized
  else if endOfStroke pos then .closed
  else if p ≤ c.closedTh.toNat then .closed
  else if p = c.midTh.toNat then .mid
  else if p = c.openTh.toNat then .openState
  else if c.closedTh.toNat < p ∧ p < c.midTh.toNat then .partiallyClosed
  else if c.midTh.toNat < p ∧ p < c.openTh.toNat then .partiallyOpen
  else .error

/-- `HOOK_STATE` (R244). -/
def hookStateOf (s : State) : HookState := hookState s.params.posSentinel s.cfg s.dec.tlmPosition

/-- The `STATUS` word (R245). -/
def statusWord (s : State) : Word :=
  (hookCode (hookStateOf s)).setWidth 32 <<< 4 ||| bit (protTriggered s) <<< 2 ||| bit (atEndStroke s) <<< 1
    ||| bit (stopped s)

/-- The `RB_FLAGS` word: `RB_INIT` in bit 1, `RB_FULL` in bit 0 (R59). -/
def flagsWord (s : State) : Word := bit s.rb.init <<< 1 ||| bit s.rb.full

end Sys2Proof.Machine
end

