-- ==== Sys2Proof/Machine/Decoder.lean ====
section
/-! DEFINITION. The frame decoder of unit DEC and its command DEC_TICK (spec/42_decoder.md). -/

namespace Sys2Proof.Machine

/-! ### The inbound frame (R200, R201) -/

/-- `f[i]`, byte i of a frame (R24). -/
def frameByte (f : List Byte) (i : Nat) : Byte := f.getD i 0

/-- `le16(f[i], f[i+1])` (R20). -/
def frame16 (f : List Byte) (i : Nat) : BitVec 16 := frameByte f (i + 1) ++ frameByte f i

/-- `le32(f[i], .., f[i+3])` (R20). -/
def frame32 (f : List Byte) (i : Nat) : Word := frame16 f (i + 2) ++ frame16 f i

/-- The sequence number of a commandEcho byte, bits 2..0 (R201). -/
def echoSeq (e : Byte) : BitVec 3 := e.extractLsb' 0 3

/-- The data-source tag, bit 3 (R201). -/
def echoTag (e : Byte) : Bool := e.getLsbD 3

/-- The data id, bits 7..4 (R201). -/
def echoId (e : Byte) : BitVec 4 := e.extractLsb' 4 4

/-- Whether the frame's checksum is that of its first 14 bytes, seeded at 0 (R200, R205). -/
def frameValid (f : List Byte) : Bool := fletcher16 (f.take 14) 0 == frame16 f 14

/-! ### The apply step (R206 to R210) -/

/-- The echo dispatch (R208). -/
def echoDispatch (e : Byte) (data : Word) (d : DecRegs) : DecRegs :=
  if echoTag e = false then { d with tlmParamId := echoId e, tlmParamData := data } else { d with rflTimer := data }

/-- The absolute difference of two numeric positions, computed on integers (R20, R209). -/
def absDiff (a b : BitVec 15) : BitVec 15 := BitVec.ofNat 15 ((a.toNat : Int) - b.toNat).natAbs

/-- The velocity update (R209). -/
def velocityUpdate (d : DecRegs) : DecRegs :=
  { d with velocity := absDiff (numericPos d.prevPosition) (numericPos d.tlmPosition) }

/-- The stall update, saturating at `STALL_CNT_MAX` (R210). -/
def stallUpdate (noiseTh : BitVec 15) (d : DecRegs) : DecRegs :=
  if d.velocity.toNat < noiseTh.toNat then
    { d with stallCnt := BitVec.ofNat 8 (min (d.stallCnt.toNat + 1) Config.stallCntMax) }
  else { d with stallCnt := 0 }

/-- The fields of a valid frame stored before the latch (R206). -/
def storeFields (f : List Byte) (d : DecRegs) : DecRegs :=
  { d with
    tlmType := frameByte f 1
    tlmVoltage := frame16 f 2
    tlmCurrent := frame16 f 4
    prevPosition := d.tlmPosition
    tlmPosition := frame16 f 6
    tlmErrRaw := frameByte f 8 }

/-- The sequence number stored from the echo (R206). -/
def storeSeq (f : List Byte) (d : DecRegs) : DecRegs := { d with tlmSeq := echoSeq (frameByte f 9) }

/-- `apply(f)`, in the order of R206. -/
def applyFrame (noiseTh : BitVec 15) (f : List Byte) (d : DecRegs) : DecRegs :=
  let d := storeFields f d
  let d := setError (frameByte f 8) d
  let d := storeSeq f d
  let d := echoDispatch (frameByte f 9) (frame32 f 10) d
  let d := velocityUpdate d
  stallUpdate noiseTh d

/-! ### One iteration (R205) -/

/-- The four outcomes of an iteration. -/
inductive IterOutcome where
  | noFrame
  | discard
  | drop
  | accept
  deriving DecidableEq, Repr

/-- `DEC_ITER()` (R205). -/
def decIter (s : State) : Except Fault (IterOutcome × State) :=
  if s.rb.length < Config.frameLen then .ok (.noFrame, s)
  else
    match memRead s s.rb.rdIdx.toNat 1 with
    | .error e => .error e
    | .ok b =>
      if b ≠ [Config.sync] then
        match consume s 1 with
        | .error e => .error e
        | .ok (_, s') => .ok (.discard, s')
      else
        match consume s Config.frameLen with
        | .error e => .error e
        | .ok (f, s') =>
          if frameValid f = false then .ok (.drop, s')
          else .ok (.accept, { s' with dec := applyFrame s'.params.noiseTh f s'.dec })

/-! ### The command (R204, R212, R213) -/

/-- The counts after an iteration (R204). -/
def TickCounts.count (c : TickCounts) : IterOutcome → TickCounts
  | .noFrame => c
  | .discard => { c with disc := c.disc + 1 }
  | .drop => { c with drop := c.drop + 1 }
  | .accept => { c with acc := c.acc + 1 }

/-- `tickValue`: the counts, each saturated to its field (R212). -/
def tickValue (c : TickCounts) : Word :=
  BitVec.ofNat 16 (min c.disc 0xFFFF) ++ (BitVec.ofNat 8 (min c.drop 0xFF) ++ BitVec.ofNat 8 (min c.acc 0xFF))

/-- One commit of a tick whose counts so far are `c`: an iteration, then the response if it found no frame and
otherwise the tick goes on at the command port's next commit (R204, R213, log 6). -/
def tickStep (c : TickCounts) (s : State) : Result :=
  match decIter s with
  | .error e => .fault e
  | .ok (.noFrame, s') => .next (respond .command .ok (tickValue c) [] { s' with tick := none })
  | .ok (r, s') => .next { s' with tick := some (c.count r) }

/-- DEC_TICK (R204): the preconditions of R214 and the first iteration are one commit (log 6). -/
def execDecTick (s : State) : Result :=
  if s.rb.init = false then .next (fail .command .uninit s)
  else if s.rb.es ≠ 1 then .next (fail .command .invalid s)
  else tickStep ⟨0, 0, 0⟩ s

end Sys2Proof.Machine
end

