-- ==== Sys2Proof/Machine/Operands.lean ====
section
/-! DEFINITION. The operands of REG_RD and REG_WR: the register map of spec/10_state.md R59. The other operands are
plain fields of the word, assembled by the decoder (spec/30_encoding.md R103). -/

namespace Sys2Proof.Machine

/-- The registers of R59 that have a number. -/
inductive RegName where
  | rbWrIdx
  | rbRdIdx
  | rbFlags
  | rbCap
  | rbEs
  | tlmType
  | tlmVoltage
  | tlmCurrent
  | tlmPosition
  | prevPosition
  | tlmErrRaw
  | errLatch
  | tlmSeq
  | tlmParamId
  | tlmParamData
  | rflTimer
  | velocity
  | stallCnt
  | status
  | hookState
  | cfgClosedTh
  | cfgMidTh
  | cfgOpenTh
  | cfgIgnoreProt
  | prc
  deriving DecidableEq, Repr

/-- The number of a register (R59). -/
def RegName.num : RegName → BitVec 16
  | .rbWrIdx => 0x0000
  | .rbRdIdx => 0x0001
  | .rbFlags => 0x0002
  | .rbCap => 0x0003
  | .rbEs => 0x0004
  | .tlmType => 0x0010
  | .tlmVoltage => 0x0011
  | .tlmCurrent => 0x0012
  | .tlmPosition => 0x0013
  | .prevPosition => 0x0014
  | .tlmErrRaw => 0x0015
  | .errLatch => 0x0016
  | .tlmSeq => 0x0017
  | .tlmParamId => 0x0018
  | .tlmParamData => 0x0019
  | .rflTimer => 0x001A
  | .velocity => 0x001B
  | .stallCnt => 0x001C
  | .status => 0x0020
  | .hookState => 0x0021
  | .cfgClosedTh => 0x0030
  | .cfgMidTh => 0x0031
  | .cfgOpenTh => 0x0032
  | .cfgIgnoreProt => 0x0033
  | .prc => 0x0034

/-- The registers of R59. -/
def RegName.all : List RegName :=
  [.rbWrIdx, .rbRdIdx, .rbFlags, .rbCap, .rbEs, .tlmType, .tlmVoltage, .tlmCurrent, .tlmPosition, .prevPosition,
    .tlmErrRaw, .errLatch, .tlmSeq, .tlmParamId, .tlmParamData, .rflTimer, .velocity, .stallCnt, .status, .hookState,
    .cfgClosedTh, .cfgMidTh, .cfgOpenTh, .cfgIgnoreProt, .prc]

/-- The register of a number; none for an unassigned number (R59). -/
def regOfNum (n : BitVec 16) : Option RegName := RegName.all.find? fun r => r.num == n

/-- `readValue(REG)`, the read value column of R59: `TLM_CURRENT` is sign-extended, every other register
zero-extended. -/
def readReg (s : State) : RegName → Word
  | .rbWrIdx => s.rb.wrIdx
  | .rbRdIdx => s.rb.rdIdx
  | .rbFlags => flagsWord s
  | .rbCap => s.rb.cap
  | .rbEs => s.rb.es.setWidth 32
  | .tlmType => s.dec.tlmType.setWidth 32
  | .tlmVoltage => s.dec.tlmVoltage.setWidth 32
  | .tlmCurrent => s.dec.tlmCurrent.signExtend 32
  | .tlmPosition => s.dec.tlmPosition.setWidth 32
  | .prevPosition => s.dec.prevPosition.setWidth 32
  | .tlmErrRaw => s.dec.tlmErrRaw.setWidth 32
  | .errLatch => s.dec.errLatch.setWidth 32
  | .tlmSeq => s.dec.tlmSeq.setWidth 32
  | .tlmParamId => s.dec.tlmParamId.setWidth 32
  | .tlmParamData => s.dec.tlmParamData
  | .rflTimer => s.dec.rflTimer
  | .velocity => s.dec.velocity.setWidth 32
  | .stallCnt => s.dec.stallCnt.setWidth 32
  | .status => statusWord s
  | .hookState => (hookCode (hookStateOf s)).setWidth 32
  | .cfgClosedTh => s.cfg.closedTh.setWidth 32
  | .cfgMidTh => s.cfg.midTh.setWidth 32
  | .cfgOpenTh => s.cfg.openTh.setWidth 32
  | .cfgIgnoreProt => bit s.cfg.ignoreProt
  | .prc => s.prc.setWidth 32

/-- The registers REG_WR may write, with the values each takes (R59, R247). -/
def regAccepts (r : RegName) (val : Word) : Bool :=
  match r with
  | .cfgClosedTh => decide (val.toNat < 0x10000)
  | .cfgMidTh => decide (val.toNat < 0x10000)
  | .cfgOpenTh => decide (val.toNat < 0x10000)
  | .cfgIgnoreProt => decide (val.toNat ≤ 1)
  | .rbWrIdx => false
  | .rbRdIdx => false
  | .rbFlags => false
  | .rbCap => false
  | .rbEs => false
  | .tlmType => false
  | .tlmVoltage => false
  | .tlmCurrent => false
  | .tlmPosition => false
  | .prevPosition => false
  | .tlmErrRaw => false
  | .errLatch => false
  | .tlmSeq => false
  | .tlmParamId => false
  | .tlmParamData => false
  | .rflTimer => false
  | .velocity => false
  | .stallCnt => false
  | .status => false
  | .hookState => false
  | .prc => false

/-- `register(REG) <- VAL`, 16 or 1 bits (R247). A read-only register takes no write. -/
def writeReg (r : RegName) (val : Word) (c : CfgRegs) : CfgRegs :=
  match r with
  | .cfgClosedTh => { c with closedTh := val.setWidth 16 }
  | .cfgMidTh => { c with midTh := val.setWidth 16 }
  | .cfgOpenTh => { c with openTh := val.setWidth 16 }
  | .cfgIgnoreProt => { c with ignoreProt := val.getLsbD 0 }
  | .rbWrIdx => c
  | .rbRdIdx => c
  | .rbFlags => c
  | .rbCap => c
  | .rbEs => c
  | .tlmType => c
  | .tlmVoltage => c
  | .tlmCurrent => c
  | .tlmPosition => c
  | .prevPosition => c
  | .tlmErrRaw => c
  | .errLatch => c
  | .tlmSeq => c
  | .tlmParamId => c
  | .tlmParamData => c
  | .rflTimer => c
  | .velocity => c
  | .stallCnt => c
  | .status => c
  | .hookState => c
  | .prc => c

end Sys2Proof.Machine
end

