-- ==== Sys2Proof/Machine/Registers.lean ====
section
/-! DEFINITION. The register commands, the error latch commands, the ready-for-lifting query and the protection
recovery counter (spec/43_telemetry_status.md). -/

namespace Sys2Proof.Machine

/-- REG_RD (R246). -/
def execRegRd (reg : BitVec 16) (s : State) : Result :=
  match regOfNum reg with
  | none => .next (fail .command .invalid s)
  | some r => .next (respond .command .ok (readReg s r) [] s)

/-- REG_WR (R247). -/
def execRegWr (reg : BitVec 16) (val : Word) (s : State) : Result :=
  match regOfNum reg with
  | none => .next (fail .command .invalid s)
  | some r =>
    if regAccepts r val = false then .next (fail .command .invalid s)
    else .next (respond .command .ok 0 [] { s with cfg := writeReg r val s.cfg })

/-- ERR_SET (R248). -/
def execErrSet (code : Byte) (s : State) : Result :=
  .next (respond .command .ok 0 [] { s with dec := setError code s.dec })

/-- ERR_CLEAR (R249). -/
def execErrClear (s : State) : Result :=
  .next (respond .command .ok 0 [] { s with dec := { s.dec with errLatch := 0 } })

/-- The staircase of RFL_QUERY (R250). -/
def rflStep (p : Params) (t : Word) : Word :=
  if p.rflHi.toNat ≤ t.toNat then p.rflLo
  else if p.rflLo.toNat ≤ t.toNat then 0
  else if t ≠ 0 ∧ p.rflBelowLo = .clear then 0
  else t

/-- RFL_QUERY (R250): ready is computed from the value before the step. -/
def execRflQuery (s : State) : Result :=
  .next (respond .command .ok (if s.dec.rflTimer ≠ 0 then 1 else 0) []
    { s with dec := { s.dec with rflTimer := rflStep s.params s.dec.rflTimer } })

/-- PRC_ADVANCE (R251): saturates at 2. -/
def execPrcAdvance (s : State) : Result :=
  .next (respond .command .ok 0 [] { s with prc := if s.prc.toNat < 2 then s.prc + 1 else s.prc })

/-- PRC_RESET (R252). -/
def execPrcReset (s : State) : Result := .next (respond .command .ok 0 [] { s with prc := 0 })

end Sys2Proof.Machine
end

