-- ==== Sys2Proof/Machine/RingBuffer.lean ====
section
/-! DEFINITION. The ring-buffer commands of unit RB (spec/40_ringbuffer.md). RB_PUSH answers on the producer port,
the others on the command port (spec/30_encoding.md R104). -/

namespace Sys2Proof.Machine

/-- RB_INIT (R141). The checks come before any write. -/
def execRbInit (es : BitVec 16) (cap : Word) (s : State) : Result :=
  if es = 0 ∨ cap.toNat < 2 then .next (fail .command .invalid s)
  else if s.params.rbMaxBytes < cap.toNat * es.toNat then .next (fail .command .invalid s)
  else
    match memWrite s 0 (List.replicate (cap.toNat * es.toNat) 0) with
    | .error e => .fault e
    | .ok s' =>
      .next (respond .command .ok 0 []
        { s' with rb := { wrIdx := 0, rdIdx := 0, full := false, init := true, cap := cap, es := es } })

/-- RB_RESET (R146): the indices and the full flag; MEM is not written. -/
def execRbReset (s : State) : Result :=
  if s.rb.init = false then .next (fail .command .uninit s)
  else .next (respond .command .ok 0 [] { s with rb := { s.rb with wrIdx := 0, rdIdx := 0, full := false } })

/-- RB_PUSH (R143): data first, then the write index, then the full flag; all or nothing. -/
def execRbPush (count : Word) (payload : List Byte) (s : State) : Result :=
  if s.rb.init = false then .next (fail .producer .uninit s)
  else if count = 0 then .next (fail .producer .invalid s)
  else if payload.length ≠ count.toNat * s.rb.es.toNat then .next (fail .producer .invalid s)
  else if s.rb.free < count.toNat then .next (fail .producer .overflow s)
  else
    match copyIn s payload with
    | .error e => .fault e
    | .ok s' =>
      let wr := s.rb.advance s.rb.wrIdx payload.length
      .next (respond .producer .ok 0 []
        { s' with rb := { s'.rb with wrIdx := wr, full := if wr = s.rb.rdIdx then true else s.rb.full } })

/-- RB_POLL (R144): a destructive read of `count` elements. -/
def execRbPoll (count : Word) (s : State) : Result :=
  if s.rb.init = false then .next (fail .command .uninit s)
  else if count = 0 then .next (fail .command .invalid s)
  else if s.rb.length = 0 then .next (fail .command .empty s)
  else if s.rb.length < count.toNat then .next (fail .command .underrun s)
  else
    match consume s (count.toNat * s.rb.es.toNat) with
    | .error e => .fault e
    | .ok (out, s') => .next (respond .command .ok 0 out s')

/-- RB_PEEK (R145): the oldest element, not consumed. -/
def execRbPeek (s : State) : Result :=
  if s.rb.init = false then .next (fail .command .uninit s)
  else if s.rb.length = 0 then .next (fail .command .empty s)
  else
    match memRead s s.rb.rdIdx.toNat s.rb.es.toNat with
    | .error e => .fault e
    | .ok out => .next (respond .command .ok 0 out s)

/-- RB_LENGTH (R147). Its failure carries `LEN_FAIL`. -/
def execRbLength (s : State) : Result :=
  if s.rb.init = false then .next (respond .command .uninit Config.lenFail [] s)
  else .next (respond .command .ok (BitVec.ofNat 32 s.rb.length) [] s)

end Sys2Proof.Machine
end

