-- ==== Sys2Proof/Machine/Dispatch.lean ====
section
/-! DEFINITION. The meaning of every instruction, one arm each. -/

namespace Sys2Proof.Machine

def exec (i : Instr) (s : State) : Host.Outcome State Fault Refusal :=
  match i with
  | .rbInit es cap => Sys2Proof.Machine.execRbInit es cap s
  | .rbReset => Sys2Proof.Machine.execRbReset s
  | .rbPush count payload => Sys2Proof.Machine.execRbPush count payload s
  | .rbPoll count => Sys2Proof.Machine.execRbPoll count s
  | .rbPeek => Sys2Proof.Machine.execRbPeek s
  | .rbLength => Sys2Proof.Machine.execRbLength s
  | .ckSum seed len payload => Sys2Proof.Machine.execCkSum seed len payload s
  | .ckValid seed len expected payload => Sys2Proof.Machine.execCkValid seed len expected payload s
  | .decTick => Sys2Proof.Machine.execDecTick s
  | .regRd reg => Sys2Proof.Machine.execRegRd reg s
  | .regWr reg val => Sys2Proof.Machine.execRegWr reg val s
  | .errSet code => Sys2Proof.Machine.execErrSet code s
  | .errClear => Sys2Proof.Machine.execErrClear s
  | .rflQuery => Sys2Proof.Machine.execRflQuery s
  | .prcAdvance => Sys2Proof.Machine.execPrcAdvance s
  | .prcReset => Sys2Proof.Machine.execPrcReset s

end Sys2Proof.Machine
end

