-- ==== Sys2Proof/Machine/Ports.lean ====
section
/-! DEFINITION. The two ports: arrival, the choice of the port that commits, and one commit of a port
(spec/10_state.md R31, spec/20_memory.md R81, spec/30_encoding.md R104 to R108). -/

namespace Sys2Proof.Machine

/-- A command arrives at a port: the outside world's one act (R100, R31). -/
def State.arrive (p : Port) (t : Txn) (s : State) : State :=
  match p with
  | .producer => { s with prodIn := s.prodIn ++ [t] }
  | .command => { s with cmdIn := s.cmdIn ++ [t] }

/-! ### Which port commits next (R81, R294) -/

/-- A command waits at the producer port. -/
def prodReady (s : State) : Bool := !s.prodIn.isEmpty

/-- The command port works on a tick or a command waits at it. -/
def cmdReady (s : State) : Bool := s.tick.isSome || !s.cmdIn.isEmpty

/-- The port given the next turn at which both can commit (log 5). -/
def turn (s : State) : Port :=
  match s.turns with
  | [] => Config.freeTurn s.freeTurns
  | p :: _ => p

/-- The turn is used up. -/
def useTurn (s : State) : State :=
  match s.turns with
  | [] => { s with freeTurns := s.freeTurns + 1 }
  | _ :: ps => { s with turns := ps }

/-- The port that commits next; none when nothing waits. -/
def pick (s : State) : Option Port :=
  if prodReady s then if cmdReady s then some (turn s) else some .producer
  else if cmdReady s then some .command
  else none

/-- The state with the turn used up, if the choice needed one. -/
def afterPick (s : State) : State := if prodReady s && cmdReady s then useTurn s else s

/-! ### One commit of a port -/

/-- Whether a command fails with UNINIT on an uninitialized buffer (R151). -/
def needsInit : Instr → Bool
  | .rbReset => true
  | .rbPush _ _ => true
  | .rbPoll _ => true
  | .rbPeek => true
  | .rbLength => true
  | .decTick => true
  | .rbInit _ _ => false
  | .ckSum _ _ _ => false
  | .ckValid _ _ _ _ => false
  | .regRd _ => false
  | .regWr _ _ => false
  | .errSet _ => false
  | .errClear => false
  | .rflQuery => false
  | .prcAdvance => false
  | .prcReset => false

/-- The value a command's UNINIT response carries (R147, R282). -/
def uninitValue : Instr → Word
  | .rbLength => Config.lenFail
  | .rbInit _ _ => 0
  | .rbReset => 0
  | .rbPush _ _ => 0
  | .rbPoll _ => 0
  | .rbPeek => 0
  | .ckSum _ _ _ => 0
  | .ckValid _ _ _ _ => 0
  | .decTick => 0
  | .regRd _ => 0
  | .regWr _ _ => 0
  | .errSet _ => 0
  | .errClear => 0
  | .rflQuery => 0
  | .prcAdvance => 0
  | .prcReset => 0

/-- The response to a transaction that is no instruction of its port: ILLEGAL (R107, R114), or for a payload on a
command that carries none INVALID, after UNINIT (R108, R281, log 11). -/
def reject (p : Port) (e : DecodeError) (s : State) : State :=
  match e with
  | .unknownOpcode => fail p .illegal s
  | .reservedBits => fail p .illegal s
  | .wrongPort => fail p .illegal s
  | .strayPayload i =>
    if needsInit i && !s.rb.init then respond p .uninit (uninitValue i) [] s else fail p .invalid s

/-- A port runs one transaction. -/
def runTxn (p : Port) (t : Txn) (s : State) : Result :=
  match decode p t.word t.payload with
  | .error e => .next (reject p e s)
  | .ok i => exec i s

/-- One commit of a port: the command port goes on with its tick if it works on one, and otherwise a port takes the
command that arrived first. -/
def servePort (p : Port) (s : State) : Result :=
  match p with
  | .producer =>
    match s.prodIn with
    | [] => .next s
    | t :: ts => runTxn .producer t { s with prodIn := ts }
  | .command =>
    match s.tick with
    | some c => tickStep c s
    | none =>
      match s.cmdIn with
      | [] => .next s
      | t :: ts => runTxn .command t { s with cmdIn := ts }

/-- One commit of the machine; with nothing waiting nothing happens (log 7). -/
def serve (s : State) : Result :=
  match pick s with
  | none => .next s
  | some p => servePort p (afterPick s)

/-- The transaction placed at the head of its port's queue, that port's turn next if the other one could commit too,
and no tick before it on the command port (log 12). -/
def placeTxn (p : Port) (t : Txn) (s : State) : State :=
  match p with
  | .producer =>
    { s with prodIn := t :: s.prodIn, turns := if cmdReady s then .producer :: s.turns else s.turns }
  | .command =>
    { s with tick := none, cmdIn := t :: s.cmdIn, turns := if prodReady s then .command :: s.turns else s.turns }

end Sys2Proof.Machine
end

