-- ==== Sys2Proof/Machine/Step.lean ====
section
/-! DEFINITION. One step of the machine: one commit of one port. -/

namespace Sys2Proof.Machine

/-- One step: a port commits a command, or the command port commits one iteration of its tick (R77, R81, R213). -/
def step (s : State) : Host.Outcome State Fault Refusal := serve s

/-- `s` with a table word as the command the next step runs, on the port that accepts it, its payload zero bytes of
the length the word implies. A program comes to run by its commands arriving at the ports (log 12). -/
def State.withFetchWord (s : State) (nbits w : Nat) : State :=
  placeTxn (portOfWord (tableWord nbits w)) (tableTxn s.rb.es nbits w) s

end Sys2Proof.Machine
end

