-- ==== Sys2Proof/Safety.lean ====
section
/-! DEFINITION. What counts as a safe state and a run, in the terms the statements use: the queue the ring buffer
holds, the invariant of the machine, reachable states, runs of steps and of commands, and the decoder as a function
of a byte stream. -/

namespace Sys2Proof.Machine

/-! ### The queue in the ring buffer -/

/-- The occupied bytes, oldest first. -/
def contents (s : State) : List Byte :=
  match copyOut s s.rb.occ with
  | .ok bs => bs
  | .error _ => []

/-! ### The invariant -/

/-- The registers and the storage of unit RB agree (R32 to R38). -/
structure RbInv (p : Params) (r : RbRegs) (m : Memory) : Prop where
  beforeInit : r.init = false → r.wrIdx = 0 ∧ r.rdIdx = 0 ∧ r.full = false ∧ r.cap = 0 ∧ r.es = 0
  capLegal : r.init = true → 2 ≤ r.cap.toNat
  esLegal : r.init = true → 1 ≤ r.es.toNat
  fits : r.init = true → r.bytesInUse ≤ p.rbMaxBytes
  wrBelow : r.init = true → r.wrIdx.toNat < r.bytesInUse
  rdBelow : r.init = true → r.rdIdx.toNat < r.bytesInUse
  wrAligned : r.init = true → r.es.toNat ∣ r.wrIdx.toNat
  rdAligned : r.init = true → r.es.toNat ∣ r.rdIdx.toNat
  fullMeets : r.full = true → r.wrIdx = r.rdIdx
  written : r.init = true → ∀ a < r.bytesInUse, (m.read a).isSome

/-- The invariant of the machine. -/
structure Inv (s : State) : Prop where
  paramsLegal : s.params.wf
  memCanonical : s.mem.wf
  memInside : ∀ c ∈ s.mem, c.1 < s.params.rbMaxBytes
  ring : RbInv s.params s.rb s.mem
  /-- R57: the value 3 never occurs. -/
  prcLegal : s.prc.toNat ≤ 2
  /-- R209: between commits `VELOCITY` is the difference of the two positions held. -/
  velocityHeld : s.dec.velocity.toNat =
    ((numericPos s.dec.prevPosition).toNat - (numericPos s.dec.tlmPosition).toNat : Int).natAbs
  /-- R214: a tick runs on an initialized byte buffer. -/
  tickOnBytes : s.tick.isSome = true → s.rb.init = true ∧ s.rb.es = 1

/-! ### Runs -/

/-- The states of every run: power-on with legal parameters, then commands arriving at the ports, any order of the
contested turns, and steps. -/
inductive Reachable : State → Prop where
  | powerOn (p : Params) (legal : p.wf) : Reachable (State.powerOn p)
  | arrive (p : Port) (t : Txn) (s : State) (run : Reachable s) : Reachable (s.arrive p t)
  | order (ps : List Port) (s : State) (run : Reachable s) : Reachable { s with turns := ps }
  | step (s t : State) (run : Reachable s) (next : step s = .next t) : Reachable t

/-- `k` steps, if none stops. -/
def steps : Nat → State → Result
  | 0, s => .next s
  | k + 1, s =>
    match step s with
    | .next t => steps k t
    | .fault e => .fault e
    | .refused r => .refused r

/-- Commands one after the other, if none stops. -/
def execAll : List Instr → State → Result
  | [], s => .next s
  | i :: is, s =>
    match exec i s with
    | .next t => execAll is t
    | .fault e => .fault e
    | .refused r => .refused r

/-- The responses a port has given, newest first. -/
def responses (p : Port) (s : State) : List Response :=
  match p with
  | .producer => s.prodOut
  | .command => s.cmdOut

/-- `i` runs from `s` to `t` and its port answers OK. -/
def Accepted (i : Instr) (s t : State) : Prop :=
  exec i s = .next t ∧ ∃ value data, responses i.port t = ⟨.ok, value, data⟩ :: responses i.port s

/-- A sequence of commands, each answered OK, leads from one state to another. -/
inductive AcceptedRun : List Instr → State → State → Prop where
  | nil (s : State) : AcceptedRun [] s s
  | cons (i : Instr) (is : List Instr) (s t u : State) (first : Accepted i s t) (rest : AcceptedRun is t u) :
      AcceptedRun (i :: is) s u

/-- Elements a command pushes, when it succeeds. -/
def pushedBy : Instr → Nat
  | .rbPush count _ => count.toNat
  | .rbInit _ _ => 0
  | .rbReset => 0
  | .rbPoll _ => 0
  | .rbPeek => 0
  | .rbLength => 0
  | .ckSum _ _ _ => 0
  | .ckValid _ _ _ _ => 0
  | .decTick => 0
  | .regRd _ => 0
  | .regWr _ _ => 0
  | .errSet _ => 0
  | .errClear => 0
  | .rflQuery => 0
  | .prcAdvance => 0
  | .prcReset => 0

/-- Elements a command polls, when it succeeds. -/
def polledBy : Instr → Nat
  | .rbPoll count => count.toNat
  | .rbInit _ _ => 0
  | .rbReset => 0
  | .rbPush _ _ => 0
  | .rbPeek => 0
  | .rbLength => 0
  | .ckSum _ _ _ => 0
  | .ckValid _ _ _ _ => 0
  | .decTick => 0
  | .regRd _ => 0
  | .regWr _ _ => 0
  | .errSet _ => 0
  | .errClear => 0
  | .rflQuery => 0
  | .prcAdvance => 0
  | .prcReset => 0

/-- RB_PUSH, RB_POLL, RB_PEEK and RB_LENGTH: the commands that use a buffer without resetting it. -/
def usesBuffer : Instr → Bool
  | .rbPush _ _ => true
  | .rbPoll _ => true
  | .rbPeek => true
  | .rbLength => true
  | .rbInit _ _ => false
  | .rbReset => false
  | .ckSum _ _ _ => false
  | .ckValid _ _ _ _ => false
  | .decTick => false
  | .regRd _ => false
  | .regWr _ _ => false
  | .errSet _ => false
  | .errClear => false
  | .rflQuery => false
  | .prcAdvance => false
  | .prcReset => false

/-- The commands that neither read nor write the ring buffer whatever their operands. REG_RD is left out because it
can read the ring-buffer registers. -/
def leavesBuffer : Instr → Bool
  | .ckSum _ _ _ => true
  | .ckValid _ _ _ _ => true
  | .regWr _ _ => true
  | .errSet _ => true
  | .errClear => true
  | .rflQuery => true
  | .prcAdvance => true
  | .prcReset => true
  | .rbInit _ _ => false
  | .rbReset => false
  | .rbPush _ _ => false
  | .rbPoll _ => false
  | .rbPeek => false
  | .rbLength => false
  | .decTick => false
  | .regRd _ => false

/-! ### Encodings -/

/-- `i` is the command of opcode value `opc` on port `p`, with fields X and Y and RSV zero (R101, R105). -/
def EncodedAs (i : Instr) (p : Port) (opc : Byte) (x : BitVec 16) (y : Word) : Prop :=
  i.port = p ∧ fieldOPC (encodeWord i) = opc ∧ fieldX (encodeWord i) = x ∧ fieldRSV (encodeWord i) = 0 ∧
    fieldY (encodeWord i) = y

/-! ### The decoder on a byte stream -/

/-- What a tick does to a byte stream that nothing is added to: counts, registers and the bytes left, after at most
`fuel` iterations (R204, R205). -/
def streamDecode (noiseTh : BitVec 15) : Nat → TickCounts → DecRegs → List Byte → TickCounts × DecRegs × List Byte
  | 0, c, d, q => (c, d, q)
  | fuel + 1, c, d, q =>
    if q.length < Config.frameLen then (c, d, q)
    else if q.take 1 ≠ [Config.sync] then streamDecode noiseTh fuel (c.count .discard) d (q.drop 1)
    else if frameValid (q.take Config.frameLen) = false then
      streamDecode noiseTh fuel (c.count .drop) d (q.drop Config.frameLen)
    else
      streamDecode noiseTh fuel (c.count .accept) (applyFrame noiseTh (q.take Config.frameLen) d)
        (q.drop Config.frameLen)

end Sys2Proof.Machine
end

