-- ==== Sys2Proof/Certificates/Slice0/Obligations.lean ====
section
/-! DEFINITION. The statements for the provers. Each docstring names the rules of spec/ the statement rests on. -/

open Sys2Proof Sys2Proof.Machine

/-! ### Encoding -/

/-- R101, R103, R105, R114: the word and the payload of every instruction decode, on its port, to that instruction,
with every operand at every value. -/
def Obligations.DecodeOfEncodeIsIdentity : Prop :=
  ∀ i : Instr, decode i.port (encode i).word (encode i).payload = .ok i

/-- R106, R107, R114: a transaction that decodes is, bit for bit, the transaction of the instruction it decodes to, so
no reserved or must-be-zero bit is dropped. -/
def Obligations.EncodeOfDecodeIsIdentity : Prop :=
  ∀ (p : Port) (w : CmdWord) (payload : List Byte) (i : Instr),
    decode p w payload = .ok i → i.port = p ∧ encode i = ⟨w, payload⟩

/-- R102, R108: a well-formed instruction's transaction is read back from its bytes, and nothing after it is taken.
The element size is needed for RB_PUSH (log 13). -/
def Obligations.TransactionReadBackFromBytes : Prop :=
  ∀ (es : BitVec 16) (i : Instr) (rest : List Byte),
    i.wellFormed es = true → readTxn es ((encode i).bytes ++ rest) = some (encode i, rest)

/-- R107: a word that matches no row of the port fails with ILLEGAL and changes nothing else; the assigned opcode
values are the ones outside R107's list. -/
def Obligations.IllegalWordsFailIllegal : Prop :=
  (∀ (p : Port) (x : Txn) (s : State),
    (∀ op : Opcode, op.port = p → x.word &&& op.mask ≠ op.matchWord) →
      runTxn p x s = .next (fail p .illegal s)) ∧
  ∀ c : Byte, (∀ op : Opcode, op.code ≠ c) ↔
    c.toNat ≤ 0x0F ∨ (0x16 ≤ c.toNat ∧ c.toNat ≤ 0x1F) ∨ (0x22 ≤ c.toNat ∧ c.toNat ≤ 0x2F) ∨
      (0x31 ≤ c.toNat ∧ c.toNat ≤ 0x3F) ∨ 0x47 ≤ c.toNat

/-- Words written out in 30_encoding.md, 40_ringbuffer.md to 43_telemetry_status.md and 95_test_vectors.md decode to
the commands they stand for, and the words of EN2, EN3, EN4, EN6 are refused. -/
def Obligations.WordsOfTheSpecDecode : Prop :=
  decode .command 0x1000010000000020 [] = .ok (.rbInit 1 32) ∧
  decode .producer 0x1200000000000003 [0x0A, 0x0B, 0x0C] = .ok (.rbPush 3 [0x0A, 0x0B, 0x0C]) ∧
  decode .command 0x1300000000000002 [] = .ok (.rbPoll 2) ∧
  decode .command 0x2012340000000000 [] = .ok (.ckSum 0x1234 0 []) ∧
  decode .command 0x2100000000020403 [1, 2] = .ok (.ckValid 0 2 0x0403 [1, 2]) ∧
  decode .command 0x3000000000000000 [] = .ok .decTick ∧
  decode .command 0x4000130000000000 [] = .ok (.regRd 0x13) ∧
  decode .command 0x4100300000000005 [] = .ok (.regWr 0x30 5) ∧
  decode .command 0x4200000000000007 [] = .ok (.errSet 7) ∧
  decode .command 0x1500000100000000 [] = .error .reservedBits ∧
  decode .command 0x1200000000000010 [] = .error .wrongPort ∧
  decode .producer 0x1400000000000000 [] = .error .wrongPort ∧
  decode .command 0x4200000000000107 [] = .error .reservedBits

/-- R108 for the thirteen commands that carry no payload: with one they fail with INVALID and change nothing, after
UNINIT where the command reports it. That UNINIT comes first is the model's reading of R281 (log 11). -/
def Obligations.StrayPayloadFails : Prop :=
  ∀ (i : Instr) (payload : List Byte) (s : State), i.opcode.takesPayload = false → payload ≠ [] →
    (s.rb.init = false ∧ (i = .rbReset ∨ (∃ count, i = .rbPoll count) ∨ i = .rbPeek ∨ i = .rbLength ∨ i = .decTick) →
      runTxn .command ⟨encodeWord i, payload⟩ s =
        .next (respond .command .uninit (if i = .rbLength then 0xFFFFFFFF else 0) [] s)) ∧
    (s.rb.init = true ∨
        ¬ (i = .rbReset ∨ (∃ count, i = .rbPoll count) ∨ i = .rbPeek ∨ i = .rbLength ∨ i = .decTick) →
      runTxn .command ⟨encodeWord i, payload⟩ s = .next (fail .command .invalid s))

/-! ### Steps and ports -/

/-- R31, R100: when the port that commits holds a transaction that decodes to `i`, the step is `exec i` on the state
with that transaction taken and the turn used up. -/
def Obligations.StepRunsTheDecodedInstruction : Prop :=
  ∀ (s : State) (x : Txn) (xs : List Txn) (i : Instr),
    (pick s = some .command → s.tick = none → s.cmdIn = x :: xs → decode .command x.word x.payload = .ok i →
      step s = exec i { afterPick s with cmdIn := xs }) ∧
    (pick s = some .producer → s.prodIn = x :: xs → decode .producer x.word x.payload = .ok i →
      step s = exec i { afterPick s with prodIn := xs })

/-- R31, R213: a command port that works on a tick goes on with it; with nothing waiting a step changes nothing (the
model's choice, log 7). -/
def Obligations.StepWithoutANewCommand : Prop :=
  (∀ (s : State) (c : TickCounts), pick s = some .command → s.tick = some c → step s = tickStep c (afterPick s)) ∧
  ∀ s : State, s.tick = none → s.cmdIn = [] → s.prodIn = [] → step s = .next s

/-- R81, R294: when both ports can commit, either may go first; when one can, it does. The turns are the model's own
field (log 5). -/
def Obligations.EitherPortMayGoFirst : Prop :=
  ∀ (s : State) (p : Port) (ps : List Port),
    (prodReady s = true → cmdReady s = true → step { s with turns := p :: ps } = servePort p { s with turns := ps }) ∧
    (prodReady s = true → cmdReady s = false → step s = servePort .producer s) ∧
    (prodReady s = false → cmdReady s = true → step s = servePort .command s)

/-- R23, R31, R100: every command gets exactly one response: commands waiting, the tick in progress and responses
given add up to the same at each port; commands are taken and responses added in order. -/
def Obligations.OneResponsePerCommand : Prop :=
  ∀ s t : State, step s = .next t →
    t.prodOut.length + t.prodIn.length = s.prodOut.length + s.prodIn.length ∧
    t.cmdOut.length + t.cmdIn.length + (if t.tick.isSome then 1 else 0) =
      s.cmdOut.length + s.cmdIn.length + (if s.tick.isSome then 1 else 0) ∧
    s.prodOut <:+ t.prodOut ∧ s.cmdOut <:+ t.cmdOut ∧ t.prodIn <:+ s.prodIn ∧ t.cmdIn <:+ s.cmdIn

/-! ### The invariant -/

/-- R310: the invariant holds at power-on with every legal parameter, and so at reset. -/
def Obligations.InvariantAtPowerOn : Prop :=
  (∀ p : Params, p.wf → Inv (State.powerOn p)) ∧ Inv State.reset

/-- R32 to R38, R57, R209, R214: every step keeps the invariant. -/
def Obligations.StepKeepsTheInvariant : Prop :=
  ∀ s t : State, Inv s → step s = .next t → Inv t

/-- R22, R282, R283, R310: from a state that meets the invariant a step answers a next state: no access leaves the
storage, no byte without a value is read, and no command stops the machine. -/
def Obligations.StepNeverStops : Prop :=
  ∀ s : State, Inv s → ∃ t, step s = .next t

/-- R38: in every run, while the buffer is initialized, (a) to (e). -/
def Obligations.RingInvariantsInEveryRun : Prop :=
  ∀ s : State, Reachable s → s.rb.init = true →
    (s.rb.wrIdx.toNat < s.rb.cap.toNat * s.rb.es.toNat ∧ s.rb.rdIdx.toNat < s.rb.cap.toNat * s.rb.es.toNat) ∧
    (s.rb.es.toNat ∣ s.rb.wrIdx.toNat ∧ s.rb.es.toNat ∣ s.rb.rdIdx.toNat) ∧
    (s.rb.full = true → s.rb.wrIdx = s.rb.rdIdx) ∧
    s.rb.length ≤ s.rb.cap.toNat ∧
    (s.rb.full = true ↔ s.rb.length = s.rb.cap.toNat)

/-! ### The ring-buffer commands -/

/-- R141: RB_INIT refuses an illegal geometry with INVALID and otherwise clears the bytes in use, sets the geometry
and the initialized flag, and leaves every other register alone, and by R71 every byte at N and above. -/
def Obligations.RbInitResult : Prop :=
  ∀ (es : BitVec 16) (cap : Word) (s : State),
    EncodedAs (.rbInit es cap) .command 0x10 es cap ∧
    (es = 0 ∨ cap.toNat < 2 ∨ s.params.rbMaxBytes < cap.toNat * es.toNat →
      exec (.rbInit es cap) s = .next (fail .command .invalid s)) ∧
    (es ≠ 0 → 2 ≤ cap.toNat → cap.toNat * es.toNat ≤ s.params.rbMaxBytes →
      ∃ t, exec (.rbInit es cap) s = .next t ∧
        t = { s with mem := t.mem, rb := ⟨0, 0, false, true, cap, es⟩, cmdOut := ⟨.ok, 0, []⟩ :: s.cmdOut } ∧
        (∀ a < cap.toNat * es.toNat, t.mem.read a = some 0) ∧
        ∀ a, cap.toNat * es.toNat ≤ a → t.mem.read a = s.mem.read a)

/-- R143: RB_PUSH, with its failures in order; a push stores its bytes at (RB_WR_IDX + i) mod N and nowhere else, and
sets the full flag exactly when it fills the buffer. -/
def Obligations.RbPushResult : Prop :=
  ∀ (count : Word) (payload : List Byte) (s : State), Inv s →
    EncodedAs (.rbPush count payload) .producer 0x12 0 count ∧
    (s.rb.init = false → exec (.rbPush count payload) s = .next (fail .producer .uninit s)) ∧
    (s.rb.init = true →
      (count = 0 ∨ payload.length ≠ count.toNat * s.rb.es.toNat →
        exec (.rbPush count payload) s = .next (fail .producer .invalid s)) ∧
      (count ≠ 0 → payload.length = count.toNat * s.rb.es.toNat →
        (s.rb.cap.toNat < s.rb.length + count.toNat →
          exec (.rbPush count payload) s = .next (fail .producer .overflow s)) ∧
        (s.rb.length + count.toNat ≤ s.rb.cap.toNat →
          ∃ t, exec (.rbPush count payload) s = .next t ∧
            t = { s with
              mem := t.mem, rb := { s.rb with wrIdx := t.rb.wrIdx, full := t.rb.full },
              prodOut := ⟨.ok, 0, []⟩ :: s.prodOut } ∧
            t.rb.wrIdx.toNat = (s.rb.wrIdx.toNat + payload.length) % s.rb.bytesInUse ∧
            (t.rb.full = true ↔ s.rb.length + count.toNat = s.rb.cap.toNat) ∧
            (∀ i < payload.length, t.mem.read ((s.rb.wrIdx.toNat + i) % s.rb.bytesInUse) = payload[i]?) ∧
            ∀ a, (∀ i < payload.length, a ≠ (s.rb.wrIdx.toNat + i) % s.rb.bytesInUse) →
              t.mem.read a = s.mem.read a)))

/-- R144: RB_POLL, with its failures in order; a poll answers the bytes at (RB_RD_IDX + i) mod N, clears the full
flag, moves the read index and changes nothing else. -/
def Obligations.RbPollResult : Prop :=
  ∀ (count : Word) (s : State), Inv s →
    EncodedAs (.rbPoll count) .command 0x13 0 count ∧
    (s.rb.init = false → exec (.rbPoll count) s = .next (fail .command .uninit s)) ∧
    (s.rb.init = true →
      (count = 0 → exec (.rbPoll count) s = .next (fail .command .invalid s)) ∧
      (count ≠ 0 → s.rb.length = 0 → exec (.rbPoll count) s = .next (fail .command .empty s)) ∧
      (0 < s.rb.length → s.rb.length < count.toNat → exec (.rbPoll count) s = .next (fail .command .underrun s)) ∧
      (count ≠ 0 → count.toNat ≤ s.rb.length →
        ∃ t out, exec (.rbPoll count) s = .next t ∧
          t = { s with
            rb := { s.rb with rdIdx := t.rb.rdIdx, full := false }, cmdOut := ⟨.ok, 0, out⟩ :: s.cmdOut } ∧
          t.rb.rdIdx.toNat = (s.rb.rdIdx.toNat + count.toNat * s.rb.es.toNat) % s.rb.bytesInUse ∧
          out.length = count.toNat * s.rb.es.toNat ∧
          ∀ i < out.length, s.mem.read ((s.rb.rdIdx.toNat + i) % s.rb.bytesInUse) = out[i]?))

/-- R145: RB_PEEK answers the element at the read index, which does not wrap, and changes nothing. -/
def Obligations.RbPeekResult : Prop :=
  ∀ s : State, Inv s →
    EncodedAs .rbPeek .command 0x14 0 0 ∧
    (s.rb.init = false → exec .rbPeek s = .next (fail .command .uninit s)) ∧
    (s.rb.init = true → s.rb.length = 0 → exec .rbPeek s = .next (fail .command .empty s)) ∧
    (s.rb.init = true → 0 < s.rb.length →
      ∃ out, exec .rbPeek s = .next (respond .command .ok 0 out s) ∧
        out.length = s.rb.es.toNat ∧ out = (contents s).take s.rb.es.toNat ∧
        ∀ i < out.length, s.mem.read (s.rb.rdIdx.toNat + i) = out[i]?)

/-- R146: RB_RESET clears the indices and the full flag, keeps the geometry and every byte of MEM, and leaves an
empty buffer, so that no stale byte is held any more. -/
def Obligations.RbResetResult : Prop :=
  ∀ s : State,
    EncodedAs .rbReset .command 0x11 0 0 ∧
    (s.rb.init = false → exec .rbReset s = .next (fail .command .uninit s)) ∧
    (s.rb.init = true →
      ∃ t, exec .rbReset s = .next t ∧
        t = { s with rb := ⟨0, 0, false, true, s.rb.cap, s.rb.es⟩, cmdOut := ⟨.ok, 0, []⟩ :: s.cmdOut } ∧
        (∀ a, t.mem.read a = s.mem.read a) ∧ t.rb.length = 0 ∧ contents t = [])

/-- R147: RB_LENGTH answers the occupied length in elements, which is never LEN_FAIL, and changes nothing. -/
def Obligations.RbLengthResult : Prop :=
  ∀ s : State, Inv s →
    EncodedAs .rbLength .command 0x15 0 0 ∧
    (s.rb.init = false → exec .rbLength s = .next (respond .command .uninit 0xFFFFFFFF [] s)) ∧
    (s.rb.init = true →
      ∃ value : Word, exec .rbLength s = .next (respond .command .ok value [] s) ∧
        value.toNat = s.rb.length ∧ value ≠ 0xFFFFFFFF ∧ (s.rb.full = true → value = s.rb.cap))

/-- R83 (b), (c), (d), R149 (d): the buffer is a first-in first-out queue of bytes. A push appends its payload, a poll
takes its data off the front, a peek shows the front and takes nothing. -/
def Obligations.BufferIsAQueue : Prop :=
  ∀ s : State, Inv s → s.rb.init = true →
    (contents s).length = s.rb.length * s.rb.es.toNat ∧
    (∀ (count : Word) (payload : List Byte) (t : State), Accepted (.rbPush count payload) s t →
      contents t = contents s ++ payload) ∧
    (∀ (count : Word) (t : State) (value : Word) (data : List Byte), exec (.rbPoll count) s = .next t →
      t.cmdOut = ⟨.ok, value, data⟩ :: s.cmdOut →
        data ++ contents t = contents s ∧ data.length = count.toNat * s.rb.es.toNat) ∧
    (∀ (t : State) (value : Word) (data : List Byte), exec .rbPeek s = .next t →
      t.cmdOut = ⟨.ok, value, data⟩ :: s.cmdOut →
        contents t = contents s ∧ data = (contents s).take s.rb.es.toNat)

/-- R149 (a): after an accepted RB_INIT, successful pushes of P elements and polls of Q elements in any order leave
the length P - Q. -/
def Obligations.PushesLessPollsIsLength : Prop :=
  ∀ (es : BitVec 16) (cap : Word) (s s0 t : State) (is : List Instr), Inv s → Accepted (.rbInit es cap) s s0 →
    (∀ i ∈ is, usesBuffer i = true) → AcceptedRun is s0 t →
      t.rb.length + (is.map polledBy).sum = (is.map pushedBy).sum

/-- R149 (c): after RB_RESET every sequence of RB_PUSH, RB_POLL, RB_PEEK and RB_LENGTH gives the responses, and leaves
the ring-buffer registers, that it does after a fresh RB_INIT of the same geometry. -/
def Obligations.ResetActsAsFreshInit : Prop :=
  ∀ (s r f : State) (is : List Instr), Inv s → s.rb.init = true →
    exec .rbReset s = .next r → exec (.rbInit s.rb.es s.rb.cap) s = .next f → (∀ i ∈ is, usesBuffer i = true) →
      ∃ r' f', execAll is r = .next r' ∧ execAll is f = .next f' ∧
        r'.cmdOut = f'.cmdOut ∧ r'.prodOut = f'.prodOut ∧ r'.rb = f'.rb

/-- R151: on an uninitialized buffer these six commands fail with UNINIT and write nothing, and only RB_INIT
initializes it. -/
def Obligations.UninitializedBufferRefusesItsCommands : Prop :=
  (∀ s : State, s.rb.init = false →
    (∀ (count : Word) (payload : List Byte), exec (.rbPush count payload) s = .next (fail .producer .uninit s)) ∧
    (∀ count : Word, exec (.rbPoll count) s = .next (fail .command .uninit s)) ∧
    exec .rbPeek s = .next (fail .command .uninit s) ∧
    exec .rbReset s = .next (fail .command .uninit s) ∧
    exec .rbLength s = .next (respond .command .uninit 0xFFFFFFFF [] s) ∧
    exec .decTick s = .next (fail .command .uninit s)) ∧
  ∀ (i : Instr) (s t : State), exec i s = .next t → s.rb.init = false → t.rb.init = true →
    ∃ es cap, i = .rbInit es cap

/-- R282: a command that fails, an illegal one included, writes no register and no byte of MEM; its response is its
status alone, but for RB_LENGTH's LEN_FAIL. -/
def Obligations.FailedCommandsChangeNothing : Prop :=
  ∀ (p : Port) (x : Txn) (s t : State) (r : Response), runTxn p x s = .next t →
    responses p t = r :: responses p s → r.status ≠ .ok →
      t = respond p r.status r.value r.data s ∧ r.data = [] ∧
        (r.value = 0 ∨ (r.status = .uninit ∧ r.value = 0xFFFFFFFF ∧ x.word = 0x1500000000000000))

/-- R32 to R37, R46, R50, R53 to R57, R70: the only commands that write each register and MEM. Only RB_PUSH sets the
full flag; RB_POLL, RB_INIT and RB_RESET clear it, and DEC_TICK moves the read index and clears it as RB_POLL does
(R34, R205). The parameters and the waiting commands are no command's to
change. -/
def Obligations.OnlyNamedCommandsWriteState : Prop :=
  ∀ (i : Instr) (s t : State), exec i s = .next t →
    (t.rb.wrIdx ≠ s.rb.wrIdx →
      (∃ count payload, i = .rbPush count payload) ∨ (∃ es cap, i = .rbInit es cap) ∨ i = .rbReset) ∧
    (t.rb.rdIdx ≠ s.rb.rdIdx →
      (∃ count, i = .rbPoll count) ∨ i = .decTick ∨ (∃ es cap, i = .rbInit es cap) ∨ i = .rbReset) ∧
    (t.rb.full = true → s.rb.full = false → ∃ count payload, i = .rbPush count payload) ∧
    (t.rb.full = false → s.rb.full = true →
      (∃ count, i = .rbPoll count) ∨ i = .decTick ∨ (∃ es cap, i = .rbInit es cap) ∨ i = .rbReset) ∧
    (t.rb.init ≠ s.rb.init ∨ t.rb.cap ≠ s.rb.cap ∨ t.rb.es ≠ s.rb.es → ∃ es cap, i = .rbInit es cap) ∧
    (s.rb.init = true → t.rb.init = true) ∧
    ((∀ count payload, i ≠ .rbPush count payload) → (∀ es cap, i ≠ .rbInit es cap) →
      ∀ a, t.mem.read a = s.mem.read a) ∧
    (t.dec.errLatch ≠ s.dec.errLatch → i = .decTick ∨ (∃ code, i = .errSet code) ∨ i = .errClear) ∧
    (t.dec.rflTimer ≠ s.dec.rflTimer → i = .decTick ∨ i = .rflQuery) ∧
    (t.dec ≠ { s.dec with errLatch := t.dec.errLatch, rflTimer := t.dec.rflTimer } → i = .decTick) ∧
    (t.cfg ≠ s.cfg → ∃ reg val, i = .regWr reg val) ∧
    (t.prc ≠ s.prc → i = .prcAdvance ∨ i = .prcReset) ∧
    (t.tick ≠ s.tick → i = .decTick) ∧
    t.params = s.params ∧ t.cmdIn = s.cmdIn ∧ t.prodIn = s.prodIn ∧ t.turns = s.turns ∧ t.freeTurns = s.freeTurns

/-! ### The checksum -/

/-- R182: the seed-chaining law. -/
def Obligations.FletcherSeedChaining : Prop :=
  ∀ (a b : List Byte) (seed : BitVec 16), fletcher16 (a ++ b) seed = fletcher16 b (fletcher16 a seed)

/-- R180, R181: the checksum of a nonempty sequence as sums reduced once at the end. -/
def Obligations.FletcherAsWeightedSums : Prop :=
  ∀ (data : List Byte) (seed : BitVec 16), data ≠ [] →
    (fletcher16 data seed).toNat % 256 = (seed.toNat % 256 + (data.map BitVec.toNat).sum) % 255 ∧
    (fletcher16 data seed).toNat / 256 =
      (seed.toNat / 256 + data.length * (seed.toNat % 256) +
        (data.zipIdx.map fun c => (data.length - c.2) * c.1.toNat).sum) % 255

/-- R185: no byte of the checksum of a nonempty sequence is 0xFF; a byte 0xFF adds nothing to a reduced c0 and still
adds c0 to c1; the empty sequence, and any of 0x00 and 0xFF bytes, gives 0 with seed 0. R185 says the second fact of
c0 without the word reduced; an unreduced seed byte 0xFF is the one value it does not hold of. -/
def Obligations.FletcherRangeFacts : Prop :=
  (∀ (data : List Byte) (seed : BitVec 16), data ≠ [] →
    (fletcher16 data seed).toNat % 256 ≤ 0xFE ∧ (fletcher16 data seed).toNat / 256 ≤ 0xFE) ∧
  (∀ c0 c1 : Nat, c0 < 255 → fletcherByte (c0, c1) 0xFF = (c0, (c1 + c0) % 255)) ∧
  ∀ data : List Byte, (∀ b ∈ data, b = 0x00 ∨ b = 0xFF) → fletcher16 data 0 = 0

/-- R183: CK_SUM answers the checksum in the low half of the value, the seed itself for no bytes, and writes no
state. -/
def Obligations.CkSumResult : Prop :=
  ∀ (seed len : BitVec 16) (payload : List Byte) (s : State),
    EncodedAs (.ckSum seed len payload) .command 0x20 seed (len ++ (0 : BitVec 16)) ∧
    (payload.length ≠ len.toNat → exec (.ckSum seed len payload) s = .next (fail .command .invalid s)) ∧
    (payload.length = len.toNat →
      ∃ value : Word, exec (.ckSum seed len payload) s = .next (respond .command .ok value [] s) ∧
        value.toNat = (fletcher16 payload seed).toNat ∧ (len = 0 → value.toNat = seed.toNat))

/-- R184: CK_VALID answers 1 exactly when the checksum is the expected one, never for nonempty data and an expected
byte 0xFF, and for no bytes exactly when the expected value is the seed; it writes no state. -/
def Obligations.CkValidResult : Prop :=
  ∀ (seed len expected : BitVec 16) (payload : List Byte) (s : State),
    EncodedAs (.ckValid seed len expected payload) .command 0x21 seed (len ++ expected) ∧
    (payload.length ≠ len.toNat → exec (.ckValid seed len expected payload) s = .next (fail .command .invalid s)) ∧
    (payload.length = len.toNat →
      ∃ value : Word, exec (.ckValid seed len expected payload) s = .next (respond .command .ok value [] s) ∧
        (value = 1 ↔ fletcher16 payload seed = expected) ∧ (value = 0 ↔ fletcher16 payload seed ≠ expected) ∧
        (len ≠ 0 → expected.toNat % 256 = 0xFF ∨ expected.toNat / 256 = 0xFF → value = 0) ∧
        (len = 0 → (value = 1 ↔ expected = seed)))

/-! ### The frame decoder -/

/-- R206 to R209: what a valid frame `f` writes into the telemetry registers. -/
def Obligations.ValidFrameUpdatesTelemetry : Prop :=
  ∀ (noiseTh : BitVec 15) (f : List Byte) (d : DecRegs),
    let b := fun i => (f.getD i 0).toNat
    let e := applyFrame noiseTh f d
    let data := b 10 + 256 * b 11 + 65536 * b 12 + 16777216 * b 13
    e.tlmType.toNat = b 1 ∧
    e.tlmVoltage.toNat = b 2 + 256 * b 3 ∧
    e.tlmCurrent.toNat = b 4 + 256 * b 5 ∧
    e.prevPosition = d.tlmPosition ∧
    e.tlmPosition.toNat = b 6 + 256 * b 7 ∧
    e.tlmErrRaw.toNat = b 8 ∧
    e.errLatch.toNat = (if d.errLatch = 0 then b 8 else d.errLatch.toNat) ∧
    e.tlmSeq.toNat = b 9 % 8 ∧
    (b 9 / 8 % 2 = 0 →
      e.tlmParamId.toNat = b 9 / 16 ∧ e.tlmParamData.toNat = data ∧ e.rflTimer = d.rflTimer) ∧
    (b 9 / 8 % 2 = 1 →
      e.rflTimer.toNat = data ∧ e.tlmParamId = d.tlmParamId ∧ e.tlmParamData = d.tlmParamData) ∧
    e.velocity.toNat = ((d.tlmPosition.toNat % 32768 : Nat) - ((b 6 + 256 * b 7) % 32768 : Nat) : Int).natAbs

/-- R210, R240: a frame of low velocity counts, saturating at 255, and any other returns the counter to 0; after `n`
low-velocity frames in a row from 0, the actuator counts as stopped exactly when `n` exceeds STALL_LIMIT (up to the
saturation). -/
def Obligations.StallCounterDebounces : Prop :=
  (∀ (noiseTh : BitVec 15) (f : List Byte) (d : DecRegs),
    let e := applyFrame noiseTh f d
    e.stallCnt.toNat = if e.velocity.toNat < noiseTh.toNat then min (d.stallCnt.toNat + 1) 255 else 0) ∧
  ∀ (fs : List (List Byte)) (s : State), s.dec.stallCnt = 0 → s.params.stallLimit < 255 →
    (∀ n < fs.length,
      ((fs.take (n + 1)).foldl (fun d f => applyFrame s.params.noiseTh f d) s.dec).velocity.toNat <
        s.params.noiseTh.toNat) →
      (stopped { s with dec := fs.foldl (fun d f => applyFrame s.params.noiseTh f d) s.dec } = true ↔
        s.params.stallLimit < fs.length)

/-- R204, R205, R211, R212: one decoder iteration of a tick whose counts are `c`, on the queued bytes: below 16 bytes
none is taken, the tick ends and the response carries the counts; one byte discarded when the head is not 0xFE; 16
bytes dropped when the checksum fails; 16 bytes applied when it holds. Only the last writes a register of DEC. That the
iteration finding no frame is the commit that gives the response, and that the counts stand in State.tick between
iterations, is the model's choice (log 6). -/
def Obligations.DecoderIterationResult : Prop :=
  ∀ (c : TickCounts) (s : State), Inv s → s.rb.init = true → s.rb.es = 1 →
    ((contents s).length < 16 →
      tickStep c s = .next (respond .command .ok (tickValue c) [] { s with tick := none })) ∧
    (16 ≤ (contents s).length → (contents s).head? ≠ some 0xFE →
      ∃ t, tickStep c s = .next t ∧
        t = { s with
          rb := { s.rb with rdIdx := t.rb.rdIdx, full := false }, tick := some { c with disc := c.disc + 1 } } ∧
        t.rb.rdIdx.toNat = (s.rb.rdIdx.toNat + 1) % s.rb.bytesInUse ∧ contents t = (contents s).drop 1) ∧
    (16 ≤ (contents s).length → (contents s).head? = some 0xFE →
      fletcher16 ((contents s).take 14) 0 ≠ (contents s).getD 15 0 ++ (contents s).getD 14 0 →
      ∃ t, tickStep c s = .next t ∧
        t = { s with
          rb := { s.rb with rdIdx := t.rb.rdIdx, full := false }, tick := some { c with drop := c.drop + 1 } } ∧
        t.rb.rdIdx.toNat = (s.rb.rdIdx.toNat + 16) % s.rb.bytesInUse ∧ contents t = (contents s).drop 16) ∧
    (16 ≤ (contents s).length → (contents s).head? = some 0xFE →
      fletcher16 ((contents s).take 14) 0 = (contents s).getD 15 0 ++ (contents s).getD 14 0 →
      ∃ t, tickStep c s = .next t ∧
        t = { s with
          rb := { s.rb with rdIdx := t.rb.rdIdx, full := false },
          dec := applyFrame s.params.noiseTh ((contents s).take 16) s.dec,
          tick := some { c with acc := c.acc + 1 } } ∧
        t.rb.rdIdx.toNat = (s.rb.rdIdx.toNat + 16) % s.rb.bytesInUse ∧ contents t = (contents s).drop 16)

/-- R204, R214: DEC_TICK needs an initialized byte buffer and then begins with an iteration. That the checks and the
first iteration are one step is the model's choice (log 6). -/
def Obligations.DecTickResult : Prop :=
  ∀ s : State,
    EncodedAs .decTick .command 0x30 0 0 ∧
    (s.rb.init = false → exec .decTick s = .next (fail .command .uninit s)) ∧
    (s.rb.init = true → s.rb.es ≠ 1 → exec .decTick s = .next (fail .command .invalid s)) ∧
    (Inv s → s.rb.init = true → s.rb.es = 1 →
      ((contents s).length < 16 → exec .decTick s = .next (respond .command .ok 0 [] { s with tick := none })) ∧
      (16 ≤ (contents s).length →
        ∃ t r, exec .decTick s = .next t ∧ decIter s = .ok (r, { t with tick := s.tick }) ∧ r ≠ .noFrame ∧
          t.tick = some (TickCounts.count ⟨0, 0, 0⟩ r) ∧ t.cmdOut = s.cmdOut))

/-- R204, R205, R206, R212, R319: a DEC_TICK that no push interrupts ends, within one step per queued byte and one
more, and does to the registers and the queue what the decoder does to the byte stream; its response carries the
counts. -/
def Obligations.TickDecodesTheByteStream : Prop :=
  ∀ (s : State) (x : Txn) (xs : List Txn), Inv s → s.rb.init = true → s.rb.es = 1 → s.tick = none →
    s.prodIn = [] → s.cmdIn = x :: xs → decode .command x.word x.payload = .ok .decTick →
      ∃ k t, k ≤ (contents s).length + 1 ∧ steps k s = .next t ∧
        let out := streamDecode s.params.noiseTh (contents s).length ⟨0, 0, 0⟩ s.dec (contents s)
        t = { s with
          rb := { s.rb with rdIdx := t.rb.rdIdx, full := t.rb.full }, dec := out.2.1, cmdIn := xs,
          cmdOut := ⟨.ok, tickValue out.1, []⟩ :: s.cmdOut } ∧
        contents t = out.2.2 ∧ (contents t).length < 16

/-- R212: the value of a tick packs the three counts, each saturated. -/
def Obligations.TickValuePacksCounts : Prop :=
  ∀ c : TickCounts,
    (tickValue c).toNat = 65536 * min c.disc 0xFFFF + 256 * min c.drop 0xFF + min c.acc 0xFF

/-- R213, R319: while 16 bytes or more are queued a tick goes on: each of its steps removes a byte at least, gives no
response, and leaves the waiting commands waiting. -/
def Obligations.TickGoesOnWhileAFrameIsHeld : Prop :=
  ∀ (s : State) (c : TickCounts), Inv s → s.tick = some c → pick s = some .command → 16 ≤ s.rb.length →
    ∃ t, step s = .next t ∧ t.tick.isSome = true ∧ t.rb.length < s.rb.length ∧ t.cmdOut = s.cmdOut ∧
      t.cmdIn = s.cmdIn

/-- R316: with a capacity below a frame a DEC_TICK answers OK with value 0 and removes nothing, and once the buffer is
full every further push fails with OVERFLOW. -/
def Obligations.SmallBufferNeverDecodes : Prop :=
  ∀ s : State, Inv s → s.rb.init = true → s.rb.es = 1 → s.tick = none → s.rb.cap.toNat < 16 →
    exec .decTick s = .next (respond .command .ok 0 [] s) ∧
    (s.rb.full = true → ∀ (count : Word) (payload : List Byte), count ≠ 0 → payload.length = count.toNat →
      exec (.rbPush count payload) s = .next (fail .producer .overflow s))

/-! ### Two ports -/

/-- R84, R104: a commit of the producer port touches the write index, the full flag, MEM and its own queue and
responses, and nothing else. -/
def Obligations.ProducerTouchesOnlyTheBuffer : Prop :=
  ∀ s t : State, pick s = some .producer → step s = .next t →
    t = { s with
      rb := { s.rb with wrIdx := t.rb.wrIdx, full := t.rb.full }, mem := t.mem, prodIn := t.prodIn,
      prodOut := t.prodOut, turns := t.turns, freeTurns := t.freeTurns }

/-- R83 (a), (d), (e), R213: whatever a producer commit does, a push in the middle of a tick included, the bytes
already queued stay at the front of the queue. -/
def Obligations.ProducerOnlyAppends : Prop :=
  ∀ s t : State, Inv s → s.rb.init = true → pick s = some .producer → step s = .next t →
    contents s <+: contents t

/-- R77, R81, R84: a push and a command that does not use the buffer give the same state in either order. -/
def Obligations.PushCommutesWithOtherCommands : Prop :=
  ∀ (i : Instr) (count : Word) (payload : List Byte) (s : State), leavesBuffer i = true →
    execAll [.rbPush count payload, i] s = execAll [i, .rbPush count payload] s

/-! ### Derived status and registers -/

/-- R240, R241, R242, R245: the STATUS word. -/
def Obligations.StatusWordPacksSignals : Prop :=
  ∀ s : State,
    let stoppedNow := decide (s.params.stallLimit < s.dec.stallCnt.toNat)
    let atEnd := decide (0x8000 ≤ s.dec.tlmPosition.toNat) && !s.cfg.ignoreProt && stoppedNow
    let triggered := atEnd && decide (s.params.safetyTh.toNat < s.dec.tlmPosition.toNat % 0x8000)
    (statusWord s).toNat =
      16 * (hookCode (hookState s.params.posSentinel s.cfg s.dec.tlmPosition)).toNat + 4 * triggered.toNat +
        2 * atEnd.toNat + stoppedNow.toNat

/-- R243, R244: the HookState of every position under every sentinel and thresholds, its code, and the ranges R244
lists for the reset thresholds. -/
def Obligations.HookStateOfEveryPosition : Prop :=
  (∀ (sentinel pos : BitVec 16) (c : CfgRegs),
    (pos = sentinel → hookState sentinel c pos = .uninitialized) ∧
    (pos ≠ sentinel → 0x8000 ≤ pos.toNat → hookState sentinel c pos = .closed) ∧
    (pos ≠ sentinel → pos.toNat < 0x8000 →
      (pos.toNat ≤ c.closedTh.toNat → hookState sentinel c pos = .closed) ∧
      (c.closedTh.toNat < pos.toNat →
        (pos = c.midTh → hookState sentinel c pos = .mid) ∧
        (pos ≠ c.midTh → pos = c.openTh → hookState sentinel c pos = .openState) ∧
        (pos ≠ c.openTh → pos.toNat < c.midTh.toNat → hookState sentinel c pos = .partiallyClosed) ∧
        (c.midTh.toNat < pos.toNat → pos.toNat < c.openTh.toNat → hookState sentinel c pos = .partiallyOpen) ∧
        (c.midTh.toNat < pos.toNat → c.openTh.toNat < pos.toNat → hookState sentinel c pos = .error)))) ∧
  (∀ (pos : BitVec 16) (ignoreProt : Bool),
    (hookCode (hookState 0xFFFF ⟨1, 13393, 17967, ignoreProt⟩ pos)).toNat =
      if pos.toNat ≤ 1 then 1
      else if pos.toNat ≤ 13392 then 2
      else if pos.toNat = 13393 then 3
      else if pos.toNat ≤ 17966 then 4
      else if pos.toNat = 17967 then 5
      else if pos.toNat ≤ 0x7FFF then 6
      else if pos.toNat ≤ 0xFFFE then 1
      else 0) ∧
  (∀ s : State, hookStateOf s = hookState s.params.posSentinel s.cfg s.dec.tlmPosition) ∧
  [HookState.uninitialized, .closed, .partiallyClosed, .mid, .partiallyOpen, .openState, .error].map hookCode =
    [0, 1, 2, 3, 4, 5, 6] ∧
  ∀ h : HookState, hookCode h ≠ 7

/-- R59, R246: REG_RD of every register number, with the read value of R59, and of no other number; it changes
nothing. -/
def Obligations.RegRdReadsTheRegisterMap : Prop :=
  ∀ (reg : BitVec 16) (s : State),
    let table : List (BitVec 16 × Word) :=
      [(0x0000, s.rb.wrIdx), (0x0001, s.rb.rdIdx),
        (0x0002, BitVec.ofNat 32 (2 * s.rb.init.toNat + s.rb.full.toNat)), (0x0003, s.rb.cap),
        (0x0004, BitVec.ofNat 32 s.rb.es.toNat), (0x0010, BitVec.ofNat 32 s.dec.tlmType.toNat),
        (0x0011, BitVec.ofNat 32 s.dec.tlmVoltage.toNat), (0x0012, BitVec.ofInt 32 s.dec.tlmCurrent.toInt),
        (0x0013, BitVec.ofNat 32 s.dec.tlmPosition.toNat), (0x0014, BitVec.ofNat 32 s.dec.prevPosition.toNat),
        (0x0015, BitVec.ofNat 32 s.dec.tlmErrRaw.toNat), (0x0016, BitVec.ofNat 32 s.dec.errLatch.toNat),
        (0x0017, BitVec.ofNat 32 s.dec.tlmSeq.toNat), (0x0018, BitVec.ofNat 32 s.dec.tlmParamId.toNat),
        (0x0019, s.dec.tlmParamData), (0x001A, s.dec.rflTimer), (0x001B, BitVec.ofNat 32 s.dec.velocity.toNat),
        (0x001C, BitVec.ofNat 32 s.dec.stallCnt.toNat), (0x0020, statusWord s),
        (0x0021, BitVec.ofNat 32 (hookCode (hookState s.params.posSentinel s.cfg s.dec.tlmPosition)).toNat),
        (0x0030, BitVec.ofNat 32 s.cfg.closedTh.toNat), (0x0031, BitVec.ofNat 32 s.cfg.midTh.toNat),
        (0x0032, BitVec.ofNat 32 s.cfg.openTh.toNat), (0x0033, BitVec.ofNat 32 s.cfg.ignoreProt.toNat),
        (0x0034, BitVec.ofNat 32 s.prc.toNat)]
    EncodedAs (.regRd reg) .command 0x40 reg 0 ∧
    exec (.regRd reg) s =
      match table.lookup reg with
      | some value => .next (respond .command .ok value [] s)
      | none => .next (fail .command .invalid s)

/-- R247: REG_WR writes the four configuration registers with a value in range and fails with INVALID on every other
number and value. -/
def Obligations.RegWrResult : Prop :=
  ∀ (reg : BitVec 16) (val : Word) (s : State),
    EncodedAs (.regWr reg val) .command 0x41 reg val ∧
    (reg = 0x0030 → val.toNat < 0x10000 →
      ∃ t, exec (.regWr reg val) s = .next t ∧ t.cfg.closedTh.toNat = val.toNat ∧
        t = { s with cfg := { s.cfg with closedTh := t.cfg.closedTh }, cmdOut := ⟨.ok, 0, []⟩ :: s.cmdOut }) ∧
    (reg = 0x0031 → val.toNat < 0x10000 →
      ∃ t, exec (.regWr reg val) s = .next t ∧ t.cfg.midTh.toNat = val.toNat ∧
        t = { s with cfg := { s.cfg with midTh := t.cfg.midTh }, cmdOut := ⟨.ok, 0, []⟩ :: s.cmdOut }) ∧
    (reg = 0x0032 → val.toNat < 0x10000 →
      ∃ t, exec (.regWr reg val) s = .next t ∧ t.cfg.openTh.toNat = val.toNat ∧
        t = { s with cfg := { s.cfg with openTh := t.cfg.openTh }, cmdOut := ⟨.ok, 0, []⟩ :: s.cmdOut }) ∧
    (reg = 0x0033 → val.toNat ≤ 1 →
      ∃ t, exec (.regWr reg val) s = .next t ∧ t.cfg.ignoreProt.toNat = val.toNat ∧
        t = { s with cfg := { s.cfg with ignoreProt := t.cfg.ignoreProt }, cmdOut := ⟨.ok, 0, []⟩ :: s.cmdOut }) ∧
    (reg.toNat < 0x0030 ∨ 0x0033 < reg.toNat ∨ (reg.toNat ≤ 0x0032 ∧ 0x10000 ≤ val.toNat) ∨
        (reg = 0x0033 ∧ 2 ≤ val.toNat) →
      exec (.regWr reg val) s = .next (fail .command .invalid s))

/-- R207, R248, R249: ERR_SET latches its code only when nothing is latched, ERR_CLEAR clears the latch and no other
register. -/
def Obligations.ErrorLatchCommands : Prop :=
  (∀ (code : Byte) (s : State),
    EncodedAs (.errSet code) .command 0x42 0 (BitVec.ofNat 32 code.toNat) ∧
    ∃ t, exec (.errSet code) s = .next t ∧
      t = { s with dec := { s.dec with errLatch := t.dec.errLatch }, cmdOut := ⟨.ok, 0, []⟩ :: s.cmdOut } ∧
      (s.dec.errLatch = 0 → t.dec.errLatch = code) ∧ (s.dec.errLatch ≠ 0 → t.dec.errLatch = s.dec.errLatch)) ∧
  ∀ s : State,
    EncodedAs .errClear .command 0x43 0 0 ∧
    ∃ t, exec .errClear s = .next t ∧
      t = { s with dec := { s.dec with errLatch := 0 }, cmdOut := ⟨.ok, 0, []⟩ :: s.cmdOut }

/-- R46: a latched error is never overwritten by another: a step keeps it, or clears it by ERR_CLEAR. -/
def Obligations.LatchedErrorStaysUntilCleared : Prop :=
  ∀ s t : State, step s = .next t → s.dec.errLatch ≠ 0 →
    t.dec.errLatch = s.dec.errLatch ∨
      (t.dec.errLatch = 0 ∧ pick s = some .command ∧ ∃ payload xs, s.cmdIn = ⟨0x4300000000000000, payload⟩ :: xs)

/-- R250: RFL_QUERY reports whether the timer was nonzero and steps it down the staircase. -/
def Obligations.RflQueryResult : Prop :=
  ∀ s : State,
    EncodedAs .rflQuery .command 0x44 0 0 ∧
    ∃ (t : State) (ready : Word), exec .rflQuery s = .next t ∧
      t = { s with
        dec := { s.dec with rflTimer := t.dec.rflTimer }, cmdOut := ⟨.ok, ready, []⟩ :: s.cmdOut } ∧
      ready.toNat = (if s.dec.rflTimer.toNat = 0 then 0 else 1) ∧
      (s.params.rflHi.toNat ≤ s.dec.rflTimer.toNat → t.dec.rflTimer = s.params.rflLo) ∧
      (s.dec.rflTimer.toNat < s.params.rflHi.toNat → s.params.rflLo.toNat ≤ s.dec.rflTimer.toNat →
        t.dec.rflTimer = 0) ∧
      (s.dec.rflTimer.toNat < s.params.rflHi.toNat → s.dec.rflTimer.toNat < s.params.rflLo.toNat →
        t.dec.rflTimer = if s.params.rflBelowLo = .clear then 0 else s.dec.rflTimer)

/-- R250: with plateaus 0 < RFL_LO < RFL_HI, from RFL_HI or above three queries answer 1, 1 and 0 and leave the timer
at 0. -/
def Obligations.RflStaircaseHasTwoPlateaus : Prop :=
  ∀ s : State, 0 < s.params.rflLo.toNat → s.params.rflLo.toNat < s.params.rflHi.toNat →
    s.params.rflHi.toNat ≤ s.dec.rflTimer.toNat →
      ∃ t, execAll [.rflQuery, .rflQuery, .rflQuery] s = .next t ∧
        t = { s with
          dec := { s.dec with rflTimer := 0 },
          cmdOut := ⟨.ok, 0, []⟩ :: ⟨.ok, 1, []⟩ :: ⟨.ok, 1, []⟩ :: s.cmdOut }

/-- R251, R252: PRC_ADVANCE adds one up to 2, and PRC_RESET returns the counter to 0. -/
def Obligations.RecoveryCounterCommands : Prop :=
  ∀ s : State,
    EncodedAs .prcAdvance .command 0x45 0 0 ∧ EncodedAs .prcReset .command 0x46 0 0 ∧
    (s.prc.toNat ≤ 2 →
      ∃ t, exec .prcAdvance s = .next t ∧ t.prc.toNat = min (s.prc.toNat + 1) 2 ∧
        t = { s with prc := t.prc, cmdOut := ⟨.ok, 0, []⟩ :: s.cmdOut }) ∧
    ∃ t, exec .prcReset s = .next t ∧ t = { s with prc := 0, cmdOut := ⟨.ok, 0, []⟩ :: s.cmdOut }

/-! ### Reset and responses -/

/-- R310, the reset column of R59: what every register reads at power-on; no byte of MEM has a value, and no command
of the reset state stops or returns data, so none can read one before RB_INIT clears them. -/
def Obligations.PowerOnValues : Prop :=
  ∀ p : Params,
    let s := State.powerOn p
    (∀ r : RegName, readReg s r =
      match r with
      | .tlmPosition => BitVec.ofNat 32 p.posSentinel.toNat
      | .prevPosition => BitVec.ofNat 32 p.posSentinel.toNat
      | .cfgClosedTh => BitVec.ofNat 32 p.closedThRst.toNat
      | .cfgMidTh => BitVec.ofNat 32 p.midThRst.toNat
      | .cfgOpenTh => BitVec.ofNat 32 p.openThRst.toNat
      | _ => 0) ∧
    stopped s = false ∧ atEndStroke s = false ∧ protTriggered s = false ∧ hookStateOf s = .uninitialized ∧
    (∀ a, s.mem.read a = none) ∧
    ∀ i : Instr, ∃ t r, exec i s = .next t ∧ responses i.port t = [r] ∧ r.data = []

/-- R110, R280: a response in bytes is its status code, the value least significant byte first, and the data, and can
be read back; the codes of the seven statuses. -/
def Obligations.ResponseReadBackFromBytes : Prop :=
  (∀ r : Response, r.bytes.head? = some r.status.code ∧ r.bytes.drop 5 = r.data ∧
    ofLE ((r.bytes.drop 1).take 4) = r.value.toNat) ∧
  (∀ a b : Status, a.code = b.code → a = b) ∧
  [Status.ok, .invalid, .overflow, .underrun, .empty, .uninit, .illegal].map Status.code = [0, 1, 2, 3, 4, 5, 6]
end

