-- ==== Sys2Proof/Laws/Decode.lean ====
section
/-! SUPPORT. The fields of an assembled command word, and the opcode lookup (spec/30_encoding.md R101, R105). -/

namespace Sys2Proof

section Fields
variable (op : Opcode) (x : BitVec 16) (y : Word)

@[simp] theorem fieldOPC_wordW : fieldOPC (wordW op x y) = op.code := by
  apply BitVec.eq_of_getLsbD_eq; intro i hi
  simp only [fieldOPC, wordW, BitVec.getLsbD_extractLsb', BitVec.getLsbD_append]
  simp [hi, show ¬ 56 + i < 32 by omega, show ¬ 56 + i - 32 < 8 by omega, show ¬ 56 + i - 32 - 8 < 16 by omega,
    show 56 + i - 32 - 8 - 16 = i by omega]

@[simp] theorem fieldX_wordW : fieldX (wordW op x y) = x := by
  apply BitVec.eq_of_getLsbD_eq; intro i hi
  simp only [fieldX, wordW, BitVec.getLsbD_extractLsb', BitVec.getLsbD_append]
  simp [hi, show ¬ 40 + i < 32 by omega, show ¬ 40 + i - 32 < 8 by omega, show 40 + i - 32 - 8 = i by omega]

@[simp] theorem fieldRSV_wordW : fieldRSV (wordW op x y) = 0 := by
  apply BitVec.eq_of_getLsbD_eq; intro i hi
  simp only [fieldRSV, wordW, BitVec.getLsbD_extractLsb', BitVec.getLsbD_append]
  simp [hi]

@[simp] theorem fieldY_wordW : fieldY (wordW op x y) = y := by
  apply BitVec.eq_of_getLsbD_eq; intro i hi
  simp only [fieldY, wordW, BitVec.getLsbD_extractLsb', BitVec.getLsbD_append]
  simp [hi]

end Fields

/-- LEN is the high half of Y. -/
theorem fieldLEN_eq (w : CmdWord) : fieldLEN w = (fieldY w).extractLsb' 16 16 := by
  apply BitVec.eq_of_getLsbD_eq; intro i hi
  simp only [fieldLEN, fieldY, BitVec.getLsbD_extractLsb']
  simp [hi, show 16 + i < 32 by omega]

/-- EXP is the low half of Y. -/
theorem fieldEXP_eq (w : CmdWord) : fieldEXP w = (fieldY w).extractLsb' 0 16 := by
  apply BitVec.eq_of_getLsbD_eq; intro i hi
  simp only [fieldEXP, fieldY, BitVec.getLsbD_extractLsb']
  simp [hi, show i < 32 by omega]

/-- CODE is the low byte of Y. -/
theorem fieldCODE_eq (w : CmdWord) : fieldCODE w = (fieldY w).extractLsb' 0 8 := by
  apply BitVec.eq_of_getLsbD_eq; intro i hi
  simp only [fieldCODE, fieldY, BitVec.getLsbD_extractLsb']
  simp [hi, show i < 32 by omega]

/-- The opcode lookup finds every opcode by its code. -/
@[simp] theorem ofCode_code (op : Opcode) : Opcode.ofCode op.code = some op := by cases op <;> decide

/-- What the opcode lookup finds has that code. -/
theorem code_of_ofCode {c : Byte} {op : Opcode} (h : Opcode.ofCode c = some op) : op.code = c := by
  have := List.find?_some h
  simpa using this

/-- A word agrees with MATCH under a mask of whole fields exactly when the fields do: the rows of R106 by field. -/
theorem matches_iff_fields (w : CmdWord) (c : Byte) :
    w &&& (0xFF0000FF00000000 : CmdWord) = c.setWidth 64 <<< 56 ↔ fieldOPC w = c ∧ fieldRSV w = 0 := by
  constructor
  · intro h
    have hb : ∀ i, (w &&& (0xFF0000FF00000000 : CmdWord)).getLsbD i = (c.setWidth 64 <<< 56).getLsbD i := fun i => by
      rw [h]
    constructor <;> apply BitVec.eq_of_getLsbD_eq <;> intro i hi <;> interval_cases i
    all_goals
      simp only [fieldOPC, fieldRSV, BitVec.getLsbD_extractLsb']
    · simpa using hb 56
    · simpa using hb 57
    · simpa using hb 58
    · simpa using hb 59
    · simpa using hb 60
    · simpa using hb 61
    · simpa using hb 62
    · simpa using hb 63
    · simpa using hb 32
    · simpa using hb 33
    · simpa using hb 34
    · simpa using hb 35
    · simpa using hb 36
    · simpa using hb 37
    · simpa using hb 38
    · simpa using hb 39
  · rintro ⟨rfl, h⟩
    have hb : ∀ i, (fieldRSV w).getLsbD i = false := fun i => by simp [h]
    apply BitVec.eq_of_getLsbD_eq; intro i hi
    simp only [fieldRSV, BitVec.getLsbD_extractLsb'] at hb
    have h0 := hb 0; have h1 := hb 1; have h2 := hb 2; have h3 := hb 3
    have h4 := hb 4; have h5 := hb 5; have h6 := hb 6; have h7 := hb 7
    simp at h0 h1 h2 h3 h4 h5 h6 h7
    interval_cases i <;> simp_all [fieldOPC]

end Sys2Proof
end

