-- ==== Sys2Proof/Laws/Memory.lean ====
section
/-! SUPPORT. The laws of the storage: what a read gives after a write, and that writes keep the canonical form. -/

namespace Sys2Proof.Machine

theorem read_append (m n : Memory) (x : Nat) :
    Memory.read (m ++ n) x = (Memory.read m x).or (Memory.read n x) := by
  induction m with
  | nil => simp [Memory.read]
  | cons c m ih =>
    obtain ⟨a, b⟩ := c
    by_cases h : a = x <;> simp [Memory.read, h, ih]

theorem read_filter (m : Memory) (p : Nat → Bool) (x : Nat) :
    Memory.read (m.filter fun c => p c.1) x = if p x then Memory.read m x else none := by
  induction m with
  | nil => simp [Memory.read]
  | cons c m ih =>
    obtain ⟨a, b⟩ := c
    by_cases h : a = x
    · subst h
      by_cases hp : p a <;> simp_all [Memory.read]
    · by_cases hp : p a <;> simp_all [Memory.read]

theorem read_cellsFrom (bs : List Byte) (off x : Nat) :
    Memory.read (cellsFrom off bs) x = if off ≤ x then bs[x - off]? else none := by
  induction bs generalizing off with
  | nil => simp [cellsFrom, Memory.read]
  | cons b bs ih =>
    simp only [cellsFrom, Memory.read, ih]
    by_cases h : off = x
    · subst h; simp
    · by_cases h2 : off + 1 ≤ x
      · have h3 : x - off = (x - (off + 1)) + 1 := by omega
        simp [h, h2, h3, show off ≤ x by omega]
      · simp [h, h2, show ¬ off ≤ x by omega]

/-- A read after a write: the stored bytes inside the written run, the old value outside. -/
theorem read_write (m : Memory) (off : Nat) (bs : List Byte) (x : Nat) :
    (m.write off bs).read x = if off ≤ x ∧ x < off + bs.length then bs[x - off]? else m.read x := by
  unfold Memory.write
  rw [read_append, read_append, read_filter m (fun a => decide (a < off)), read_cellsFrom,
    read_filter m (fun a => decide (off + bs.length ≤ a))]
  by_cases h1 : off ≤ x
  · by_cases h2 : x < off + bs.length
    · have h3 : x - off < bs.length := by omega
      simp [h1, h2, show ¬ x < off by omega, List.getElem?_eq_getElem h3]
    · simp [h1, h2, show ¬ x < off by omega, show off + bs.length ≤ x by omega,
        List.getElem?_eq_none (show bs.length ≤ x - off by omega)]
  · simp [h1, show x < off by omega, show ¬ off + bs.length ≤ x by omega]

theorem mem_cellsFrom {bs : List Byte} {off : Nat} {c : Host.Cell} (h : c ∈ cellsFrom off bs) :
    off ≤ c.1 ∧ c.1 < off + bs.length := by
  induction bs generalizing off with
  | nil => simp [cellsFrom] at h
  | cons b bs ih =>
    rcases List.mem_cons.mp h with rfl | h
    · simp
    · have := ih h; simp; omega

theorem cellsFrom_wf (bs : List Byte) (off : Nat) : Memory.wf (cellsFrom off bs) := by
  induction bs generalizing off with
  | nil => simp [cellsFrom, Memory.wf]
  | cons b bs ih =>
    refine List.pairwise_cons.mpr ⟨fun c hc => ?_, ih _⟩
    have := mem_cellsFrom hc; simp; omega

/-- A write keeps the canonical form. -/
theorem write_wf {m : Memory} (h : m.wf) (off : Nat) (bs : List Byte) : (m.write off bs).wf := by
  unfold Memory.write Memory.wf
  refine List.pairwise_append.mpr ⟨List.pairwise_append.mpr ⟨h.filter _, cellsFrom_wf _ _, ?_⟩, h.filter _, ?_⟩
  · intro a ha b hb
    have h1 : a.1 < off := by simpa using (List.mem_filter.mp ha).2
    have h2 := mem_cellsFrom hb
    omega
  · intro a ha b hb
    have h2 : off + bs.length ≤ b.1 := by simpa using (List.mem_filter.mp hb).2
    rcases List.mem_append.mp ha with ha | ha
    · have h1 : a.1 < off := by simpa using (List.mem_filter.mp ha).2
      omega
    · have h1 := mem_cellsFrom ha
      omega

/-- A write inside a bound keeps memory inside it. -/
theorem write_inside {m : Memory} {bound : Nat} (h : ∀ c ∈ m, c.1 < bound) {off : Nat} {bs : List Byte}
    (fits : bs = [] ∨ off + bs.length ≤ bound) : ∀ c ∈ m.write off bs, c.1 < bound := by
  intro c hc
  unfold Memory.write at hc
  rcases List.mem_append.mp hc with hc | hc
  · rcases List.mem_append.mp hc with hc | hc
    · exact h c (List.mem_filter.mp hc).1
    · have := mem_cellsFrom hc
      rcases fits with rfl | fits
      · simp at this; omega
      · omega
  · exact h c (List.mem_filter.mp hc).1

/-! ### Runs of bytes -/

/-- A run that is read is exactly the bytes stored there. -/
theorem readRun_ok {m : Memory} {off n : Nat} {bs : List Byte} :
    readRun m off n = .ok bs ↔ bs.length = n ∧ ∀ i < n, m.read (off + i) = bs[i]? := by
  induction n generalizing off bs with
  | zero => cases bs <;> simp [readRun]
  | succ n ih =>
    simp only [readRun]
    constructor
    · intro h
      split at h
      · simp at h
      · next b hb =>
        split at h
        · simp at h
        · next bs' hbs =>
          simp only [Except.ok.injEq] at h
          subst h
          obtain ⟨hl, hr⟩ := ih.mp hbs
          refine ⟨by simp [hl], fun i hi => ?_⟩
          cases i with
          | zero => simpa using hb
          | succ i => simpa [Nat.add_assoc, Nat.add_comm 1 i] using hr i (by omega)
    · rintro ⟨hl, hr⟩
      cases bs with
      | nil => simp at hl
      | cons b bs =>
        have h0 := hr 0 (by omega)
        have hrest : readRun m (off + 1) n = .ok bs := ih.mpr ⟨by simpa using hl, fun i hi => by
          have := hr (i + 1) (by omega)
          simpa [Nat.add_assoc, Nat.add_comm 1 i] using this⟩
        simp only [Nat.add_zero, List.getElem?_cons_zero] at h0
        simp [h0, hrest]

/-- A run whose every byte has a value is read. -/
theorem readRun_total {m : Memory} {off n : Nat} (h : ∀ i < n, (m.read (off + i)).isSome) :
    ∃ bs, readRun m off n = .ok bs := by
  induction n generalizing off with
  | zero => exact ⟨[], rfl⟩
  | succ n ih =>
    obtain ⟨b, hb⟩ := Option.isSome_iff_exists.mp (h 0 (by omega))
    obtain ⟨bs, hbs⟩ := ih (off := off + 1) fun i hi => by
      have := h (i + 1) (by omega)
      simpa [Nat.add_assoc, Nat.add_comm 1 i] using this
    exact ⟨b :: bs, by simp only [Nat.add_zero] at hb; simp [readRun, hb, hbs]⟩

end Sys2Proof.Machine
end

