-- ==== Sys2Proof/Laws/State.lean ====
section
/-! SUPPORT. What each shared update of a state leaves alone: one lemma per field per update. -/

namespace Sys2Proof.Machine

section Respond
variable (p : Port) (st : Status) (v : Word) (d : List Byte) (s : State)

@[simp] theorem respond_rb : (respond p st v d s).rb = s.rb := by cases p <;> rfl
@[simp] theorem respond_mem : (respond p st v d s).mem = s.mem := by cases p <;> rfl
@[simp] theorem respond_dec : (respond p st v d s).dec = s.dec := by cases p <;> rfl
@[simp] theorem respond_cfg : (respond p st v d s).cfg = s.cfg := by cases p <;> rfl
@[simp] theorem respond_prc : (respond p st v d s).prc = s.prc := by cases p <;> rfl
@[simp] theorem respond_params : (respond p st v d s).params = s.params := by cases p <;> rfl
@[simp] theorem respond_tick : (respond p st v d s).tick = s.tick := by cases p <;> rfl
@[simp] theorem respond_cmdIn : (respond p st v d s).cmdIn = s.cmdIn := by cases p <;> rfl
@[simp] theorem respond_prodIn : (respond p st v d s).prodIn = s.prodIn := by cases p <;> rfl
@[simp] theorem respond_turns : (respond p st v d s).turns = s.turns := by cases p <;> rfl
@[simp] theorem respond_freeTurns : (respond p st v d s).freeTurns = s.freeTurns := by cases p <;> rfl

@[simp] theorem respond_command_cmdOut : (respond .command st v d s).cmdOut = ⟨st, v, d⟩ :: s.cmdOut := rfl
@[simp] theorem respond_command_prodOut : (respond .command st v d s).prodOut = s.prodOut := rfl
@[simp] theorem respond_producer_prodOut : (respond .producer st v d s).prodOut = ⟨st, v, d⟩ :: s.prodOut := rfl
@[simp] theorem respond_producer_cmdOut : (respond .producer st v d s).cmdOut = s.cmdOut := rfl

end Respond

/-- Failing is answering the status alone. -/
@[simp] theorem fail_eq_respond (p : Port) (st : Status) (s : State) : fail p st s = respond p st 0 [] s := rfl

section Turns
variable (s : State)

@[simp] theorem useTurn_rb : (useTurn s).rb = s.rb := by unfold useTurn; split <;> rfl
@[simp] theorem useTurn_mem : (useTurn s).mem = s.mem := by unfold useTurn; split <;> rfl
@[simp] theorem useTurn_dec : (useTurn s).dec = s.dec := by unfold useTurn; split <;> rfl
@[simp] theorem useTurn_cfg : (useTurn s).cfg = s.cfg := by unfold useTurn; split <;> rfl
@[simp] theorem useTurn_prc : (useTurn s).prc = s.prc := by unfold useTurn; split <;> rfl
@[simp] theorem useTurn_params : (useTurn s).params = s.params := by unfold useTurn; split <;> rfl
@[simp] theorem useTurn_tick : (useTurn s).tick = s.tick := by unfold useTurn; split <;> rfl
@[simp] theorem useTurn_cmdIn : (useTurn s).cmdIn = s.cmdIn := by unfold useTurn; split <;> rfl
@[simp] theorem useTurn_prodIn : (useTurn s).prodIn = s.prodIn := by unfold useTurn; split <;> rfl
@[simp] theorem useTurn_cmdOut : (useTurn s).cmdOut = s.cmdOut := by unfold useTurn; split <;> rfl
@[simp] theorem useTurn_prodOut : (useTurn s).prodOut = s.prodOut := by unfold useTurn; split <;> rfl

@[simp] theorem afterPick_rb : (afterPick s).rb = s.rb := by unfold afterPick; split <;> simp
@[simp] theorem afterPick_mem : (afterPick s).mem = s.mem := by unfold afterPick; split <;> simp
@[simp] theorem afterPick_dec : (afterPick s).dec = s.dec := by unfold afterPick; split <;> simp
@[simp] theorem afterPick_cfg : (afterPick s).cfg = s.cfg := by unfold afterPick; split <;> simp
@[simp] theorem afterPick_prc : (afterPick s).prc = s.prc := by unfold afterPick; split <;> simp
@[simp] theorem afterPick_params : (afterPick s).params = s.params := by unfold afterPick; split <;> simp
@[simp] theorem afterPick_tick : (afterPick s).tick = s.tick := by unfold afterPick; split <;> simp
@[simp] theorem afterPick_cmdIn : (afterPick s).cmdIn = s.cmdIn := by unfold afterPick; split <;> simp
@[simp] theorem afterPick_prodIn : (afterPick s).prodIn = s.prodIn := by unfold afterPick; split <;> simp
@[simp] theorem afterPick_cmdOut : (afterPick s).cmdOut = s.cmdOut := by unfold afterPick; split <;> simp
@[simp] theorem afterPick_prodOut : (afterPick s).prodOut = s.prodOut := by unfold afterPick; split <;> simp

end Turns

section Latch
variable (code : Byte) (d : DecRegs)

@[simp] theorem setError_tlmPosition : (setError code d).tlmPosition = d.tlmPosition := by unfold setError; split <;> rfl
@[simp] theorem setError_prevPosition : (setError code d).prevPosition = d.prevPosition := by
  unfold setError; split <;> rfl
@[simp] theorem setError_velocity : (setError code d).velocity = d.velocity := by unfold setError; split <;> rfl
@[simp] theorem setError_stallCnt : (setError code d).stallCnt = d.stallCnt := by unfold setError; split <;> rfl
@[simp] theorem setError_rflTimer : (setError code d).rflTimer = d.rflTimer := by unfold setError; split <;> rfl

/-- The latch after an error is raised: the first code stays. -/
theorem setError_errLatch : (setError code d).errLatch = if d.errLatch = 0 then code else d.errLatch := by
  unfold setError; split <;> simp_all

end Latch

end Sys2Proof.Machine
end

