-- ==== Sys2Proof/Laws/Ops.lean ====
section
/-! SUPPORT. What each shared operation can do: storage access with its bound, ring arithmetic, and the wrap-split
transfers byte by byte (spec/40_ringbuffer.md R142). -/

namespace Sys2Proof.Machine

/-! ### Storage access -/

/-- MemRead answers exactly the stored bytes, inside the storage. -/
theorem memRead_ok {s : State} {off n : Nat} {bs : List Byte} (h : memRead s off n = .ok bs) :
    (n = 0 ∨ off + n ≤ s.params.rbMaxBytes) ∧ bs.length = n ∧ ∀ i < n, s.mem.read (off + i) = bs[i]? := by
  unfold memRead at h
  split at h
  · simp at h
  · next hb => exact ⟨by omega, readRun_ok.mp h⟩

/-- MemRead answers when the run lies inside the storage and every byte of it has a value. -/
theorem memRead_total {s : State} {off n : Nat} (hb : n = 0 ∨ off + n ≤ s.params.rbMaxBytes)
    (hw : ∀ i < n, (s.mem.read (off + i)).isSome) : ∃ bs, memRead s off n = .ok bs := by
  unfold memRead
  rw [if_neg (by omega)]
  exact readRun_total hw

/-- MemWrite changes MEM alone, by the write of its bytes, inside the storage. -/
theorem memWrite_ok {s t : State} {off : Nat} {bs : List Byte} (h : memWrite s off bs = .ok t) :
    (bs = [] ∨ off + bs.length ≤ s.params.rbMaxBytes) ∧ t = { s with mem := s.mem.write off bs } := by
  unfold memWrite at h
  split at h
  · simp at h
  · next hb =>
    refine ⟨?_, by simpa using h.symm⟩
    by_cases hn : bs = []
    · exact .inl hn
    · exact .inr (by simp_all)

/-- MemWrite answers inside the storage. -/
theorem memWrite_total {s : State} {off : Nat} {bs : List Byte}
    (hb : bs = [] ∨ off + bs.length ≤ s.params.rbMaxBytes) :
    memWrite s off bs = .ok { s with mem := s.mem.write off bs } := by
  unfold memWrite
  rw [if_neg]
  rintro ⟨h1, h2⟩
  rcases hb with hb | hb
  · exact h1 hb
  · omega

/-- MemWrite keeps the canonical form of MEM and its bound. -/
theorem memWrite_keeps {s t : State} {off : Nat} {bs : List Byte} (h : memWrite s off bs = .ok t) (hw : s.mem.wf)
    (hi : ∀ c ∈ s.mem, c.1 < s.params.rbMaxBytes) : t.mem.wf ∧ ∀ c ∈ t.mem, c.1 < t.params.rbMaxBytes := by
  obtain ⟨hb, rfl⟩ := memWrite_ok h
  exact ⟨write_wf hw _ _, write_inside hi hb⟩

/-! ### Ring arithmetic -/

/-- An index moved by `n` is the sum modulo N, exactly: no 32-bit wrap. -/
theorem advance_toNat (r : RbRegs) (idx : Word) (n : Nat) (h0 : 0 < r.bytesInUse) (h : r.bytesInUse ≤ 2 ^ 32) :
    (r.advance idx n).toNat = (idx.toNat + n) % r.bytesInUse := by
  unfold RbRegs.advance
  have := Nat.mod_lt (idx.toNat + n) h0
  simp only [BitVec.toNat_ofNat]
  exact Nat.mod_eq_of_lt (by omega)

/-- The occupied byte count by cases. -/
theorem occ_cases (r : RbRegs) (hw : r.wrIdx.toNat < r.bytesInUse) (hr : r.rdIdx.toNat < r.bytesInUse) :
    r.occ = if r.full then r.bytesInUse
      else if r.rdIdx.toNat ≤ r.wrIdx.toNat then r.wrIdx.toNat - r.rdIdx.toNat
      else r.wrIdx.toNat + r.bytesInUse - r.rdIdx.toNat := by
  unfold RbRegs.occ
  split
  · rfl
  · split
    · next h =>
      rw [Int.emod_eq_of_lt (by omega) (by omega)]; omega
    · next h =>
      rw [← Int.add_emod_right, Int.emod_eq_of_lt (by omega) (by omega)]; omega

theorem occ_le (r : RbRegs) (hw : r.wrIdx.toNat < r.bytesInUse) (hr : r.rdIdx.toNat < r.bytesInUse) :
    r.occ ≤ r.bytesInUse := by
  rw [occ_cases r hw hr]
  split
  · omega
  · split <;> omega

/-- A sum of two numbers below N, modulo N. -/
theorem ring_mod {a b n : Nat} (ha : a < n) (hb : b < n) :
    (a + b) % n = if a + b < n then a + b else a + b - n := by
  split
  · next h => exact Nat.mod_eq_of_lt h
  · next h => rw [Nat.mod_eq_sub_mod (by omega), Nat.mod_eq_of_lt (by omega)]

/-! ### Transfers -/

/-- CopyOut answers `n` bytes, byte i from offset (RB_RD_IDX + i) mod N. -/
theorem copyOut_ok {s : State} {n : Nat} {out : List Byte} (hr : s.rb.rdIdx.toNat < s.rb.bytesInUse)
    (hn : n ≤ s.rb.bytesInUse) (h : copyOut s n = .ok out) :
    out.length = n ∧ ∀ i < n, s.mem.read ((s.rb.rdIdx.toNat + i) % s.rb.bytesInUse) = out[i]? := by
  unfold copyOut at h
  simp only at h
  split at h
  · simp at h
  · next tail ht =>
    split at h
    · simp at h
    · next head hh =>
      simp only [Except.ok.injEq] at h
      subst h
      obtain ⟨-, tl, tr⟩ := memRead_ok ht
      obtain ⟨-, hl, hrd⟩ := memRead_ok hh
      refine ⟨by simp only [List.length_append, tl, hl]; omega, fun i hi => ?_⟩
      rw [ring_mod hr (by omega)]
      split
      · next hlt =>
        rw [tr i (by omega), List.getElem?_append_left (by omega)]
      · next hge =>
        rw [List.getElem?_append_right (by omega), tl]
        have := hrd (i - (s.rb.bytesInUse - s.rb.rdIdx.toNat)) (by omega)
        rw [show 0 + (i - (s.rb.bytesInUse - s.rb.rdIdx.toNat)) = s.rb.rdIdx.toNat + i - s.rb.bytesInUse by omega] at this
        rw [this]
        congr 1
        omega

/-- CopyOut answers on an initialized buffer whose bytes in use all have values. -/
theorem copyOut_total {s : State} {n : Nat} (hi : RbInv s.params s.rb s.mem) (init : s.rb.init = true)
    (hn : n ≤ s.rb.bytesInUse) : ∃ out, copyOut s n = .ok out := by
  have hr := hi.rdBelow init
  have hf := hi.fits init
  have hw := hi.written init
  obtain ⟨tail, ht⟩ := memRead_total (s := s) (off := s.rb.rdIdx.toNat)
    (n := min n (s.rb.bytesInUse - s.rb.rdIdx.toNat)) (.inr (by omega)) fun i h => hw _ (by omega)
  obtain ⟨head, hh⟩ := memRead_total (s := s) (off := 0)
    (n := n - min n (s.rb.bytesInUse - s.rb.rdIdx.toNat)) (.inr (by omega)) fun i h => hw _ (by omega)
  exact ⟨tail ++ head, by simp [copyOut, ht, hh]⟩

/-- CopyIn changes MEM alone: byte i goes to offset (RB_WR_IDX + i) mod N, every other offset keeps its value, and
the canonical form and the bound are kept. -/
theorem copyIn_ok {s t : State} {bs : List Byte} (hw : s.rb.wrIdx.toNat < s.rb.bytesInUse)
    (hn : bs.length ≤ s.rb.bytesInUse) (h : copyIn s bs = .ok t) :
    t = { s with mem := t.mem } ∧
    (∀ i < bs.length, t.mem.read ((s.rb.wrIdx.toNat + i) % s.rb.bytesInUse) = bs[i]?) ∧
    (∀ a, (∀ i < bs.length, a ≠ (s.rb.wrIdx.toNat + i) % s.rb.bytesInUse) → t.mem.read a = s.mem.read a) := by
  unfold copyIn at h
  simp only at h
  split at h
  · simp at h
  · next s' h1 =>
    obtain ⟨-, rfl⟩ := memWrite_ok h1
    obtain ⟨-, rfl⟩ := memWrite_ok h
    refine ⟨rfl, fun i hi => ?_, fun a ha => ?_⟩
    · rw [ring_mod hw (by omega)]
      simp only [read_write, List.length_take, List.length_drop]
      split
      · next hlt =>
        rw [if_neg (by omega), if_pos (by omega), List.getElem?_take_of_lt (by omega)]
        congr 1; omega
      · next hge =>
        rw [if_pos (by omega), List.getElem?_drop]
        congr 1; omega
    · simp only [read_write, List.length_take, List.length_drop]
      rw [if_neg, if_neg]
      · intro hin
        have := ha (a - s.rb.wrIdx.toNat) (by omega)
        rw [ring_mod hw (by omega)] at this
        split at this <;> omega
      · intro hin
        have := ha (a + (s.rb.bytesInUse - s.rb.wrIdx.toNat)) (by omega)
        by_cases hz : a + (s.rb.bytesInUse - s.rb.wrIdx.toNat) < s.rb.bytesInUse
        · rw [ring_mod hw hz] at this
          split at this <;> omega
        · omega

/-- CopyIn answers when the bytes fit the buffer and the buffer fits the storage. -/
theorem copyIn_total {s : State} {bs : List Byte} (hw : s.rb.wrIdx.toNat < s.rb.bytesInUse)
    (hf : s.rb.bytesInUse ≤ s.params.rbMaxBytes) (hn : bs.length ≤ s.rb.bytesInUse) :
    ∃ t, copyIn s bs = .ok t := by
  unfold copyIn
  simp only
  rw [memWrite_total (.inr (by simp only [List.length_take]; omega))]
  simp only
  rw [memWrite_total (.inr (by simp only [List.length_drop]; omega))]
  exact ⟨_, rfl⟩

/-- CopyIn keeps the canonical form of MEM and its bound. -/
theorem copyIn_keeps {s t : State} {bs : List Byte} (h : copyIn s bs = .ok t) (hw : s.mem.wf)
    (hi : ∀ c ∈ s.mem, c.1 < s.params.rbMaxBytes) : t.mem.wf ∧ ∀ c ∈ t.mem, c.1 < t.params.rbMaxBytes := by
  unfold copyIn at h
  simp only at h
  split at h
  · simp at h
  · next s' h1 =>
    obtain ⟨hw1, hi1⟩ := memWrite_keeps h1 hw hi
    exact memWrite_keeps h hw1 hi1

/-- Consuming is copying out, clearing the full flag and advancing the read index. -/
theorem consume_ok {s t : State} {n : Nat} {out : List Byte} (h : consume s n = .ok (out, t)) :
    copyOut s n = .ok out ∧
      t = { s with rb := { s.rb with full := false, rdIdx := s.rb.advance s.rb.rdIdx n } } := by
  unfold consume at h
  split at h
  · simp at h
  · next o ho =>
    simp only [Except.ok.injEq, Prod.mk.injEq] at h
    obtain ⟨rfl, rfl⟩ := h
    exact ⟨ho, rfl⟩

/-- Consuming answers whenever copying out does. -/
theorem consume_total {s : State} {n : Nat} {out : List Byte} (h : copyOut s n = .ok out) :
    consume s n = .ok (out, { s with rb := { s.rb with full := false, rdIdx := s.rb.advance s.rb.rdIdx n } }) := by
  simp [consume, h]

/-- What one decoder iteration can do (R205, R211). -/
theorem decIter_cases {s t : State} {r : IterOutcome} (h : decIter s = .ok (r, t)) :
    (r = .noFrame ∧ t = s ∧ s.rb.length < Config.frameLen) ∨
    (r = .discard ∧ Config.frameLen ≤ s.rb.length ∧ ∃ out, consume s 1 = .ok (out, t)) ∨
    (Config.frameLen ≤ s.rb.length ∧ ∃ f s', consume s Config.frameLen = .ok (f, s') ∧
      ((r = .drop ∧ frameValid f = false ∧ t = s') ∨
        (r = .accept ∧ frameValid f = true ∧ t = { s' with dec := applyFrame s'.params.noiseTh f s'.dec }))) := by
  unfold decIter at h
  split at h
  · next hl =>
    simp only [Except.ok.injEq, Prod.mk.injEq] at h
    exact .inl ⟨h.1.symm, h.2.symm, hl⟩
  · next hl =>
    have hl : Config.frameLen ≤ s.rb.length := by omega
    right
    split at h
    · simp at h
    · split at h
      · split at h
        · simp at h
        · next o s' hc =>
          simp only [Except.ok.injEq, Prod.mk.injEq] at h
          obtain ⟨rfl, rfl⟩ := h
          exact .inl ⟨rfl, hl, o, hc⟩
      · right
        split at h
        · simp at h
        · next f s' hc =>
          refine ⟨hl, f, s', hc, ?_⟩
          split at h
          · next hv =>
            simp only [Except.ok.injEq, Prod.mk.injEq] at h
            exact .inl ⟨h.1.symm, hv, h.2.symm⟩
          · next hv =>
            simp only [Except.ok.injEq, Prod.mk.injEq] at h
            exact .inr ⟨h.1.symm, by simpa using hv, h.2.symm⟩

end Sys2Proof.Machine
end

