-- ==== Sys2Proof/Laws/PerInstr.lean ====
section
/-! SUPPORT. Facts of every instruction as syntax, one lemma per constructor. The family WordFields: the word of an
instruction carries its opcode value, reserved bits zero, and the lookup finds its opcode (spec/30_encoding.md R101). -/

namespace Sys2Proof.Laws.WordFields

/-- The opcode field, the reserved field and the lookup of an instruction's word. -/
def Statement (i : Instr) : Prop :=
  fieldOPC (encodeWord i) = i.opcode.code ∧ fieldRSV (encodeWord i) = 0 ∧
    Opcode.ofCode (fieldOPC (encodeWord i)) = some i.opcode

theorem rbInit (es : BitVec 16) (cap : Word) : Statement (.rbInit es cap) := by
  simp [Statement, encodeWord, Instr.opcode]

theorem rbReset : Statement .rbReset := by simp [Statement, encodeWord, Instr.opcode]

theorem rbPush (count : Word) (payload : List Byte) : Statement (.rbPush count payload) := by
  simp [Statement, encodeWord, Instr.opcode]

theorem rbPoll (count : Word) : Statement (.rbPoll count) := by simp [Statement, encodeWord, Instr.opcode]

theorem rbPeek : Statement .rbPeek := by simp [Statement, encodeWord, Instr.opcode]

theorem rbLength : Statement .rbLength := by simp [Statement, encodeWord, Instr.opcode]

theorem ckSum (seed len : BitVec 16) (payload : List Byte) : Statement (.ckSum seed len payload) := by
  simp [Statement, encodeWord, Instr.opcode]

theorem ckValid (seed len expected : BitVec 16) (payload : List Byte) :
    Statement (.ckValid seed len expected payload) := by
  simp [Statement, encodeWord, Instr.opcode]

theorem decTick : Statement .decTick := by simp [Statement, encodeWord, Instr.opcode]

theorem regRd (reg : BitVec 16) : Statement (.regRd reg) := by simp [Statement, encodeWord, Instr.opcode]

theorem regWr (reg : BitVec 16) (val : Word) : Statement (.regWr reg val) := by
  simp [Statement, encodeWord, Instr.opcode]

theorem errSet (code : Byte) : Statement (.errSet code) := by simp [Statement, encodeWord, Instr.opcode]

theorem errClear : Statement .errClear := by simp [Statement, encodeWord, Instr.opcode]

theorem rflQuery : Statement .rflQuery := by simp [Statement, encodeWord, Instr.opcode]

theorem prcAdvance : Statement .prcAdvance := by simp [Statement, encodeWord, Instr.opcode]

theorem prcReset : Statement .prcReset := by simp [Statement, encodeWord, Instr.opcode]

end Sys2Proof.Laws.WordFields
end

