-- ==== Sys2Proof/Laws/Ports.lean ====
section
/-! SUPPORT. What a step does, by the port that commits, and that a placed transaction is the one the next step
runs. -/

namespace Sys2Proof.Machine

/-- A step by the port that commits. -/
theorem step_cases (s : State) :
    (pick s = none ∧ step s = .next s) ∨ ∃ p, pick s = some p ∧ step s = servePort p (afterPick s) := by
  unfold step serve
  cases h : pick s with
  | none => exact .inl ⟨rfl, rfl⟩
  | some p => exact .inr ⟨p, rfl, rfl⟩

/-- A producer commit runs the oldest waiting transaction. -/
theorem serve_producer {s : State} {t : Txn} {ts : List Txn} (h : s.prodIn = t :: ts) :
    servePort .producer s = runTxn .producer t { s with prodIn := ts } := by
  simp [servePort, h]

/-- A command-port commit without a tick runs the oldest waiting transaction. -/
theorem serve_command {s : State} {t : Txn} {ts : List Txn} (ht : s.tick = none) (h : s.cmdIn = t :: ts) :
    servePort .command s = runTxn .command t { s with cmdIn := ts } := by
  simp [servePort, ht, h]

/-- A command-port commit with a tick is an iteration of it. -/
theorem serve_tick {s : State} {c : TickCounts} (h : s.tick = some c) : servePort .command s = tickStep c s := by
  simp [servePort, h]

/-- A port with nothing to do is not picked, and nothing is picked only when both have nothing to do. -/
theorem pick_none_iff (s : State) : pick s = none ↔ prodReady s = false ∧ cmdReady s = false := by
  unfold pick
  cases prodReady s <;> cases cmdReady s <;> simp

/-- A placed transaction's port is picked. -/
theorem pick_placeTxn (p : Port) (t : Txn) (s : State) : pick (placeTxn p t s) = some p := by
  cases p
  · cases h : cmdReady s <;> simp_all [pick, placeTxn, prodReady, cmdReady, turn]
  · cases h : prodReady s <;> simp_all [pick, placeTxn, prodReady, cmdReady, turn]

/-- The turn placed for a producer transaction is used up by the pick. -/
theorem afterPick_placeTxn_producer (t : Txn) (s : State) :
    afterPick (placeTxn .producer t s) = { s with prodIn := t :: s.prodIn } := by
  cases h : cmdReady s <;> simp_all [afterPick, placeTxn, prodReady, cmdReady, useTurn]

/-- The turn placed for a command transaction is used up by the pick. -/
theorem afterPick_placeTxn_command (t : Txn) (s : State) :
    afterPick (placeTxn .command t s) = { s with tick := none, cmdIn := t :: s.cmdIn } := by
  cases h : prodReady s <;> simp_all [afterPick, placeTxn, prodReady, cmdReady, useTurn]

/-- The next step runs a transaction placed at the producer port, on the state it was placed in. -/
theorem step_placeTxn_producer (t : Txn) (s : State) : step (placeTxn .producer t s) = runTxn .producer t s := by
  simp [step, serve, pick_placeTxn, afterPick_placeTxn_producer, servePort]

/-- The next step runs a transaction placed at the command port, on the state it was placed in without its tick. -/
theorem step_placeTxn_command (t : Txn) (s : State) :
    step (placeTxn .command t s) = runTxn .command t { s with tick := none } := by
  simp [step, serve, pick_placeTxn, afterPick_placeTxn_command, servePort]

/-- The next step after withFetchWord runs exactly the instruction the decoder reads from the table word. -/
theorem step_withFetchWord {s : State} {nbits w : Nat} {i : Instr}
    (h : decode (portOfWord (tableWord nbits w)) (tableWord nbits w) (tableTxn s.rb.es nbits w).payload = .ok i) :
    step (s.withFetchWord nbits w) =
      match portOfWord (tableWord nbits w) with
      | .producer => exec i s
      | .command => exec i { s with tick := none } := by
  unfold State.withFetchWord
  cases hp : portOfWord (tableWord nbits w) with
  | producer => rw [hp] at h; simp [step_placeTxn_producer, runTxn, tableTxn] at h ⊢; simp [h]
  | command => rw [hp] at h; simp [step_placeTxn_command, runTxn, tableTxn] at h ⊢; simp [h]

end Sys2Proof.Machine
end

