-- ==== Sys2Proof/Machine/Assembler.lean ====
section
/-! DEFINITION. The assembly lines and pseudo-instructions of spec/30_encoding.md R111 and R112: from the characters
of a line to a port and an instruction. -/

namespace Sys2Proof.Machine

/-! ### Names -/

/-- The mnemonic of an opcode (R105). -/
def mnemonic : Opcode → List Char
  | .rbInit => "RB_INIT".toList
  | .rbReset => "RB_RESET".toList
  | .rbPush => "RB_PUSH".toList
  | .rbPoll => "RB_POLL".toList
  | .rbPeek => "RB_PEEK".toList
  | .rbLength => "RB_LENGTH".toList
  | .ckSum => "CK_SUM".toList
  | .ckValid => "CK_VALID".toList
  | .decTick => "DEC_TICK".toList
  | .regRd => "REG_RD".toList
  | .regWr => "REG_WR".toList
  | .errSet => "ERR_SET".toList
  | .errClear => "ERR_CLEAR".toList
  | .rflQuery => "RFL_QUERY".toList
  | .prcAdvance => "PRC_ADVANCE".toList
  | .prcReset => "PRC_RESET".toList

/-- The name of a register (R59). -/
def regText : RegName → List Char
  | .rbWrIdx => "RB_WR_IDX".toList
  | .rbRdIdx => "RB_RD_IDX".toList
  | .rbFlags => "RB_FLAGS".toList
  | .rbCap => "RB_CAP".toList
  | .rbEs => "RB_ES".toList
  | .tlmType => "TLM_TYPE".toList
  | .tlmVoltage => "TLM_VOLTAGE".toList
  | .tlmCurrent => "TLM_CURRENT".toList
  | .tlmPosition => "TLM_POSITION".toList
  | .prevPosition => "PREV_POSITION".toList
  | .tlmErrRaw => "TLM_ERR_RAW".toList
  | .errLatch => "ERR_LATCH".toList
  | .tlmSeq => "TLM_SEQ".toList
  | .tlmParamId => "TLM_PARAM_ID".toList
  | .tlmParamData => "TLM_PARAM_DATA".toList
  | .rflTimer => "RFL_TIMER".toList
  | .velocity => "VELOCITY".toList
  | .stallCnt => "STALL_CNT".toList
  | .status => "STATUS".toList
  | .hookState => "HOOK_STATE".toList
  | .cfgClosedTh => "CFG_CLOSED_TH".toList
  | .cfgMidTh => "CFG_MID_TH".toList
  | .cfgOpenTh => "CFG_OPEN_TH".toList
  | .cfgIgnoreProt => "CFG_IGNORE_PROT".toList
  | .prc => "PRC".toList

/-- The pseudo-instructions of R112. -/
inductive Pseudo where
  | append
  | checksum
  | isValid
  | poll1
  | read
  deriving DecidableEq, Repr

/-- The name of a pseudo-instruction (R112). -/
def pseudoText : Pseudo → List Char
  | .append => "APPEND".toList
  | .checksum => "CHECKSUM".toList
  | .isValid => "ISVALID".toList
  | .poll1 => "POLL1".toList
  | .read => "READ".toList

/-! ### Numbers -/

/-- The value of a hexadecimal digit. -/
def digitVal (c : Char) : Option Nat :=
  let n := c.toNat
  if 48 ≤ n ∧ n ≤ 57 then some (n - 48)
  else if 65 ≤ n ∧ n ≤ 70 then some (n - 55)
  else if 97 ≤ n ∧ n ≤ 102 then some (n - 87)
  else none

/-- Digits in a base, most significant first. -/
def digits (base : Nat) : Nat → List Char → Option Nat
  | acc, [] => some acc
  | acc, c :: cs =>
    match digitVal c with
    | none => none
    | some d => if d < base then digits base (acc * base + d) cs else none

/-- A decimal or `0x` hexadecimal number (R111). -/
def number : List Char → Option Nat
  | [] => none
  | '0' :: 'x' :: c :: cs => digits 16 0 (c :: cs)
  | c :: cs => digits 10 0 (c :: cs)

/-- A number that fits a field; a larger one is no operand (log 18). -/
def fit (w n : Nat) : Option (BitVec w) := if n < 2 ^ w then some (BitVec.ofNat w n) else none

/-- A payload byte, in hexadecimal without a prefix (R111). -/
def hexByte : List Char → Option Byte
  | [] => none
  | c :: cs => (digits 16 0 (c :: cs)).bind (fit 8)

/-! ### Tokens and operands -/

/-- The tokens of a line. -/
inductive Token where
  | word (cs : List Char)
  | comma
  | lbracket
  | rbracket
  deriving DecidableEq, Repr

/-- The word read so far, as a token. -/
def flush : List Char → List Token
  | [] => []
  | c :: cs => [.word (c :: cs).reverse]

/-- The tokens of a line up to its comment; the first argument is the word read so far, reversed. -/
def tokens : List Char → List Char → List Token
  | acc, [] => flush acc
  | acc, c :: cs =>
    if c = ';' then flush acc
    else if c = ' ' ∨ c = '\t' then flush acc ++ tokens [] cs
    else if c = ',' then flush acc ++ .comma :: tokens [] cs
    else if c = '[' then flush acc ++ .lbracket :: tokens [] cs
    else if c = ']' then flush acc ++ .rbracket :: tokens [] cs
    else tokens (c :: acc) cs

/-- An operand: a number or a name, or a payload. -/
inductive AsmArg where
  | word (cs : List Char)
  | bytes (bs : List Byte)
  deriving DecidableEq, Repr

/-- Where the reader of an operand list stands. -/
inductive ArgPlace where
  | first
  | next
  | after
  | byteFirst
  | byteNext (bs : List Byte)
  | byteAfter (bs : List Byte)
  deriving DecidableEq, Repr

/-- The operands of a line, separated by commas. -/
def readArgs : ArgPlace → List Token → Option (List AsmArg)
  | .first, [] => some []
  | .after, [] => some []
  | .first, .word cs :: ts => (readArgs .after ts).map (.word cs :: ·)
  | .next, .word cs :: ts => (readArgs .after ts).map (.word cs :: ·)
  | .first, .lbracket :: ts => readArgs .byteFirst ts
  | .next, .lbracket :: ts => readArgs .byteFirst ts
  | .after, .comma :: ts => readArgs .next ts
  | .byteFirst, .rbracket :: ts => (readArgs .after ts).map (.bytes [] :: ·)
  | .byteFirst, .word cs :: ts => (hexByte cs).bind fun b => readArgs (.byteAfter [b]) ts
  | .byteNext bs, .word cs :: ts => (hexByte cs).bind fun b => readArgs (.byteAfter (bs ++ [b])) ts
  | .byteAfter bs, .comma :: ts => readArgs (.byteNext bs) ts
  | .byteAfter bs, .rbracket :: ts => (readArgs .after ts).map (.bytes bs :: ·)
  | _, _ => none

/-- A number operand of a field. -/
def argNum (w : Nat) : AsmArg → Option (BitVec w)
  | .word cs => (number cs).bind (fit w)
  | .bytes _ => none

/-- The register of a name (R111). -/
def regOfText (cs : List Char) : Option RegName := RegName.all.find? fun r => regText r == cs

/-- A register operand: its number or its name (R111). -/
def argReg : AsmArg → Option (BitVec 16)
  | .word cs =>
    match regOfText cs with
    | some r => some r.num
    | none => (number cs).bind (fit 16)
  | .bytes _ => none

/-- The instruction of a mnemonic and its operands (R111). -/
def buildInstr (op : Opcode) (args : List AsmArg) : Option Instr :=
  match op, args with
  | .rbInit, [es, cap] => (argNum 16 es).bind fun es => (argNum 32 cap).map fun cap => .rbInit es cap
  | .rbReset, [] => some .rbReset
  | .rbPush, [count, .bytes bs] => (argNum 32 count).map fun count => .rbPush count bs
  | .rbPoll, [count] => (argNum 32 count).map .rbPoll
  | .rbPeek, [] => some .rbPeek
  | .rbLength, [] => some .rbLength
  | .ckSum, [seed, .bytes bs] => (argNum 16 seed).bind fun seed => (fit 16 bs.length).map fun len => .ckSum seed len bs
  | .ckValid, [seed, expected, .bytes bs] =>
    (argNum 16 seed).bind fun seed => (argNum 16 expected).bind fun expected =>
      (fit 16 bs.length).map fun len => .ckValid seed len expected bs
  | .decTick, [] => some .decTick
  | .regRd, [reg] => (argReg reg).map .regRd
  | .regWr, [reg, val] => (argReg reg).bind fun reg => (argNum 32 val).map fun val => .regWr reg val
  | .errSet, [code] => (argNum 8 code).map .errSet
  | .errClear, [] => some .errClear
  | .rflQuery, [] => some .rflQuery
  | .prcAdvance, [] => some .prcAdvance
  | .prcReset, [] => some .prcReset
  | _, _ => none

/-- The expansion of a pseudo-instruction, with the port of its line (R112). -/
def expand (p : Port) (q : Pseudo) (args : List AsmArg) : Option (Port × Instr) :=
  match q, args with
  | .append, [.bytes bs] => (fit 32 bs.length).map fun n => (.producer, .rbPush n bs)
  | .checksum, [.bytes bs] => (fit 16 bs.length).map fun n => (p, .ckSum 0 n bs)
  | .isValid, [expected, .bytes bs] =>
    (argNum 16 expected).bind fun expected => (fit 16 bs.length).map fun n => (p, .ckValid 0 n expected bs)
  | .poll1, [] => some (p, .rbPoll 1)
  | .read, [.word cs] => (regOfText cs).map fun r => (p, .regRd r.num)
  | _, _ => none

/-- The opcode of a mnemonic. -/
def opcodeOfText (cs : List Char) : Option Opcode := Opcode.all.find? fun op => mnemonic op == cs

/-- The pseudo-instruction of a name. -/
def pseudoOfText (cs : List Char) : Option Pseudo :=
  [Pseudo.append, .checksum, .isValid, .poll1, .read].find? fun q => pseudoText q == cs

/-- The command of a line without its port prefix. -/
def assembleTokens (p : Port) : List Token → Option (Port × Instr)
  | .word m :: ts =>
    match opcodeOfText m with
    | some op => ((readArgs .first ts).bind (buildInstr op)).map fun i => (p, i)
    | none =>
      match pseudoOfText m with
      | some q => (readArgs .first ts).bind (expand p q)
      | none => none
  | _ => none

/-- One line: `P:` sends it to the producer port, and every other line goes to the command port (R111). -/
def assembleLine (line : List Char) : Option (Port × Instr) :=
  match line.dropWhile fun c => c = ' ' ∨ c = '\t' with
  | 'P' :: ':' :: rest => assembleTokens .producer (tokens [] rest)
  | cs => assembleTokens .command (tokens [] cs)

end Sys2Proof.Machine
end

