-- ==== Sys2Proof/Tests/Slice0.lean ====
section
/-! SUPPORT. Tests against the vectors of spec/95_test_vectors.md (their ids stand in the docstrings), the smoke test
of WellFormed, and for every statement with hypotheses a witness that meets them. -/

namespace Sys2Proof.Machine

/-! ### Small states -/

/-- Power-on with the example arguments of 95_test_vectors.md. -/
def fresh : State := State.powerOn Config.exampleParams

/-- An initialized buffer that holds the bytes `bs` at offsets 0 on; N is the number of bytes. -/
def ring (es : BitVec 16) (cap wr rd : Word) (full : Bool) (bs : List Byte) : State :=
  { fresh with rb := ⟨wr, rd, full, true, cap, es⟩, mem := cellsFrom 0 bs }

/-- `s` with other telemetry. -/
def withDec (s : State) (d : DecRegs) : State := { s with dec := d }

/-- The state a result answers, if it does. -/
def after : Result → Option State
  | .next t => some t
  | .fault _ => none
  | .refused _ => none

/-- The newest response of the command port. -/
def answer (r : Result) : Option Response := (after r).bind fun t => t.cmdOut.head?

/-- The newest response of the producer port. -/
def prodAnswer (r : Result) : Option Response := (after r).bind fun t => t.prodOut.head?

/-- Frame F1 of 95_test_vectors.md. -/
def frameF1 : List Byte :=
  [0xFE, 0x01, 0xD2, 0x04, 0x9C, 0xFF, 0x51, 0x34, 0x00, 0x35, 0x11, 0x22, 0x33, 0x44, 0xD8, 0x82]

/-- Frame F1x: F1 with its last byte changed. -/
def frameF1x : List Byte :=
  [0xFE, 0x01, 0xD2, 0x04, 0x9C, 0xFF, 0x51, 0x34, 0x00, 0x35, 0x11, 0x22, 0x33, 0x44, 0xD8, 0x83]

/-- Frame F2: position 0x8001, tag 1, data 1500. -/
def frameF2 : List Byte :=
  [0xFE, 0x01, 0xB0, 0x04, 0xFA, 0x00, 0x01, 0x80, 0x00, 0x0E, 0xDC, 0x05, 0x00, 0x00, 0x21, 0x95]

/-- Frame F3: error 3, position 17967. -/
def frameF3 : List Byte :=
  [0xFE, 0x02, 0x00, 0x00, 0x00, 0x00, 0x2F, 0x46, 0x03, 0xF7, 0xFF, 0xFF, 0xFF, 0xFF, 0x71, 0x5B]

/-- A byte buffer of 17 that holds F1. -/
def holdsF1 : State := ring 1 17 16 0 false (frameF1 ++ [0])

/-- A byte buffer of 17 that holds F1x. -/
def holdsF1x : State := ring 1 17 16 0 false (frameF1x ++ [0])

/-- A full byte buffer of 16 that holds no sync byte. -/
def holdsNoise : State := ring 1 16 0 0 true (List.replicate 16 0)

/-- A byte buffer of 4 as vector RB10 leaves it: one byte held, at offset 2. -/
def holdsOne : State := ring 1 4 3 2 false [0x0A, 0x0B, 0x0C, 0]

/-- A full byte buffer of 4 as vector RB12 leaves it. -/
def holdsFour : State := ring 1 4 2 2 true [0x0E, 0x0F, 0x0C, 0x0D]

/-- An empty byte buffer of 4 as vector RB15 leaves it. -/
def holdsNone : State := ring 1 4 2 2 false [0x0E, 0x0F, 0x0C, 0x0D]

/-- A buffer of four 2-byte elements before step 4 of program P2. -/
def holdsPair : State := ring 2 4 6 4 false [1, 2, 3, 4, 5, 6, 0, 0]

/-! ### The invariant of the small states -/

/-- The invariant from conditions that can be decided. -/
theorem inv_of {s : State} (h : s.params.wf ∧ s.mem.wf ∧ (∀ c ∈ s.mem, c.1 < s.params.rbMaxBytes) ∧ s.prc.toNat ≤ 2 ∧
    s.dec.velocity.toNat =
      ((numericPos s.dec.prevPosition).toNat - (numericPos s.dec.tlmPosition).toNat : Int).natAbs ∧
    s.rb.init = true ∧ (s.tick.isSome = true → s.rb.es = 1))
    (g : 2 ≤ s.rb.cap.toNat ∧ 1 ≤ s.rb.es.toNat ∧ s.rb.bytesInUse ≤ s.params.rbMaxBytes ∧
      s.rb.wrIdx.toNat < s.rb.bytesInUse ∧ s.rb.rdIdx.toNat < s.rb.bytesInUse ∧ s.rb.es.toNat ∣ s.rb.wrIdx.toNat ∧
      s.rb.es.toNat ∣ s.rb.rdIdx.toNat ∧ (s.rb.full = true → s.rb.wrIdx = s.rb.rdIdx) ∧
      ∀ a < s.rb.bytesInUse, (s.mem.read a).isSome = true) : Inv s := by
  obtain ⟨h1, h2, h3, h4, h5, h6, h7⟩ := h
  obtain ⟨g1, g2, g3, g4, g5, g6, g7, g8, g9⟩ := g
  exact ⟨h1, h2, h3,
    ⟨by simp [h6], fun _ => g1, fun _ => g2, fun _ => g3, fun _ => g4, fun _ => g5, fun _ => g6, fun _ => g7, g8,
      fun _ => g9⟩, h4, h5, fun ht => ⟨h6, h7 ht⟩⟩

theorem inv_holdsF1 : Inv holdsF1 := inv_of (by decide) (by decide)
theorem inv_holdsF1x : Inv holdsF1x := inv_of (by decide) (by decide)
theorem inv_holdsNoise : Inv holdsNoise := inv_of (by decide) (by decide)
theorem inv_holdsOne : Inv holdsOne := inv_of (by decide) (by decide)
theorem inv_holdsFour : Inv holdsFour := inv_of (by decide) (by decide)
theorem inv_holdsNone : Inv holdsNone := inv_of (by decide) (by decide)
theorem inv_holdsPair : Inv holdsPair := inv_of (by decide) (by decide)

/-- A tick in progress on a buffer that holds a frame. -/
theorem inv_ticking : Inv { holdsF1 with tick := some ⟨3, 0, 0⟩ } := inv_of (by decide) (by decide)

/-- Power-on before any RB_INIT. -/
theorem inv_fresh : Inv fresh :=
  ⟨by decide, by decide, by decide,
    ⟨by decide, by decide, by decide, by decide, by decide, by decide, by decide, by decide, by decide,
      fun h => absurd h (by decide)⟩, by decide, by decide, by decide⟩

/-! ### Well-formedness: an ill-formed term for each check, and a good one -/

theorem test_wellFormed_push_short : (Instr.rbPush 2 [1]).wellFormed 1 = false := by decide
theorem test_wellFormed_push_elements : (Instr.rbPush 2 [1, 2]).wellFormed 2 = false := by decide
theorem test_wellFormed_push : (Instr.rbPush 2 [1, 2, 3, 4]).wellFormed 2 = true := by decide
theorem test_wellFormed_sum : (Instr.ckSum 0 3 [1, 2]).wellFormed 1 = false := by decide
theorem test_wellFormed_valid : (Instr.ckValid 0 1 0x0403 [1, 2]).wellFormed 1 = false := by decide

/-! ### Decoding: every constructor by a word written out in the spec, and refused words -/

/-- RB22. -/
theorem test_decode_rbInit : decode .command 0x1000100000000100 [] = .ok (.rbInit 16 256) := by decide
/-- RB17. -/
theorem test_decode_rbReset : decode .command 0x1100000000000000 [] = .ok .rbReset := by decide
/-- RB9. -/
theorem test_decode_rbPush : decode .producer 0x1200000000000002 [0x0D, 0x0E] = .ok (.rbPush 2 [0x0D, 0x0E]) := by
  decide
/-- RB15. -/
theorem test_decode_rbPoll : decode .command 0x1300000000000004 [] = .ok (.rbPoll 4) := by decide
/-- RB3. -/
theorem test_decode_rbPeek : decode .command 0x1400000000000000 [] = .ok .rbPeek := by decide
/-- RB1. -/
theorem test_decode_rbLength : decode .command 0x1500000000000000 [] = .ok .rbLength := by decide
/-- P6 step 2. -/
theorem test_decode_ckSum :
    decode .command 0x204C270000030000 [0x64, 0x65, 0x66] = .ok (.ckSum 0x4C27 3 [0x64, 0x65, 0x66]) := by decide
/-- P6 step 4. -/
theorem test_decode_ckValid : decode .command 0x2100000000062057 [] = .ok (.ckValid 0 6 0x2057 []) := by decide
/-- P1 step 3. -/
theorem test_decode_decTick : decode .command 0x3000000000000000 [] = .ok .decTick := by decide
/-- P1 step 7. -/
theorem test_decode_regRd : decode .command 0x40001B0000000000 [] = .ok (.regRd 0x1B) := by decide
/-- RG7. -/
theorem test_decode_regWr : decode .command 0x4100300000010000 [] = .ok (.regWr 0x30 0x10000) := by decide
/-- EL5. -/
theorem test_decode_errSet : decode .command 0x4200000000000007 [] = .ok (.errSet 7) := by decide
/-- EL6. -/
theorem test_decode_errClear : decode .command 0x4300000000000000 [] = .ok .errClear := by decide
/-- P7 step 7. -/
theorem test_decode_rflQuery : decode .command 0x4400000000000000 [] = .ok .rflQuery := by decide
/-- PR1. -/
theorem test_decode_prcAdvance : decode .command 0x4500000000000000 [] = .ok .prcAdvance := by decide
/-- PR2. -/
theorem test_decode_prcReset : decode .command 0x4600000000000000 [] = .ok .prcReset := by decide

/-- EN1. -/
theorem test_decode_zero : decode .command 0 [] = .error .unknownOpcode := by decide
/-- EN5. -/
theorem test_decode_poll_x : decode .command 0x1300010000000001 [] = .error .reservedBits := by decide
/-- EN7. -/
theorem test_decode_tick_y : decode .command 0x3000000000000001 [] = .error .reservedBits := by decide
/-- EN8. -/
theorem test_decode_ff : decode .command 0xFF00000000000000 [] = .error .unknownOpcode := by decide
/-- CK21. -/
theorem test_decode_sum_exp : decode .command 0x2000000000020001 [1, 2] = .error .reservedBits := by decide
/-- R108: a payload on a command that carries none. -/
theorem test_decode_stray : decode .command 0x1400000000000000 [1] = .error (.strayPayload .rbPeek) := by decide
/-- The values next to the ends of R107's list of unassigned opcodes. -/
theorem test_unassigned_opcodes :
    ([0x0F, 0x16, 0x1F, 0x22, 0x2F, 0x31, 0x3F, 0x47] : List Byte).all (fun c => (Opcode.ofCode c).isNone) = true ∧
      ([0x10, 0x15, 0x20, 0x21, 0x30, 0x40, 0x46] : List Byte).all (fun c => (Opcode.ofCode c).isSome) = true := by
  decide

/-- R102: the word of RB8 in bytes, least significant first, then its payload. -/
theorem test_bytes :
    (encode (.rbPush 3 [0x0A, 0x0B, 0x0C])).bytes = [3, 0, 0, 0, 0, 0, 0, 0x12, 0x0A, 0x0B, 0x0C] := by decide

/-! ### Assembly lines (R111, R112) -/

theorem test_asm_push :
    assembleLine "P: RB_PUSH 3, [0A, 0B, 0C] ; RB8".toList = some (.producer, .rbPush 3 [0x0A, 0x0B, 0x0C]) := by
  decide
theorem test_asm_read : assembleLine "READ TLM_POSITION".toList = some (.command, .regRd 0x13) := by decide
theorem test_asm_hex : assembleLine "REG_WR 0x30, 5".toList = some (.command, .regWr 0x30 5) := by decide
theorem test_asm_range : assembleLine "ERR_SET 256".toList = none := by decide

/-! ### The ring-buffer commands -/

/-- RB7. -/
theorem test_rbInit_ok :
    (after (exec (.rbInit 1 4) fresh)).map (fun t => (t.cmdOut, t.rb, t.mem)) =
      some ([⟨.ok, 0, []⟩], ⟨0, 0, false, true, 4, 1⟩, [(0, 0), (1, 0), (2, 0), (3, 0)]) := by decide
/-- RB6: N is one above RB_MAX_BYTES. -/
theorem test_rbInit_large : answer (exec (.rbInit 1 4097) fresh) = some ⟨.invalid, 0, []⟩ := by decide
/-- RB17. -/
theorem test_rbReset :
    (after (exec .rbReset holdsNone)).map (fun t => (t.rb, t.mem)) =
      some (⟨0, 0, false, true, 4, 1⟩, [(0, 0x0E), (1, 0x0F), (2, 0x0C), (3, 0x0D)]) := by decide
/-- RB12: the bytes go to 3, 0 and 1, and the buffer is full. -/
theorem test_rbPush_wraps :
    (after (exec (.rbPush 3 [0x0D, 0x0E, 0x0F]) holdsOne)).map (fun t => (t.rb, t.mem)) =
      some (⟨2, 2, true, true, 4, 1⟩, [(0, 0x0E), (1, 0x0F), (2, 0x0C), (3, 0x0D)]) := by decide
/-- P2 step 4: 2-byte elements across the end. -/
theorem test_rbPush_pairs :
    (after (exec (.rbPush 3 [7, 8, 9, 10, 11, 12]) holdsPair)).map (fun t => (t.rb, t.mem.map Prod.snd)) =
      some (⟨4, 4, true, true, 4, 2⟩, [9, 10, 11, 12, 5, 6, 7, 8]) := by decide
/-- RB15. -/
theorem test_rbPoll_wraps :
    (after (exec (.rbPoll 4) holdsFour)).map (fun t => (t.cmdOut, t.rb)) =
      some ([⟨.ok, 0, [0x0C, 0x0D, 0x0E, 0x0F]⟩], ⟨2, 2, false, true, 4, 1⟩) := by decide
/-- RB14. -/
theorem test_rbPoll_none : answer (exec (.rbPoll 0) holdsFour) = some ⟨.invalid, 0, []⟩ := by decide
/-- RB13. -/
theorem test_rbPeek : answer (exec .rbPeek holdsFour) = some ⟨.ok, 0, [0x0C]⟩ := by decide
/-- RB21. -/
theorem test_rbLength_full : answer (exec .rbLength holdsFour) = some ⟨.ok, 4, []⟩ := by decide
/-- RB1. -/
theorem test_rbLength_uninit : answer (exec .rbLength fresh) = some ⟨.uninit, 0xFFFFFFFF, []⟩ := by decide

/-! ### The checksum commands -/

/-- CK6, CK12, CK13 and CK14. -/
theorem test_fletcher16 :
    fletcher16 [0xC8, 0x64, 0xC8] 0 = 0xEBF5 ∧ fletcher16 [1] 0x1234 = 0x4735 ∧ fletcher16 [] 0x00FF = 0x00FF ∧
      fletcher16 [0] 0x00FF = 0x0000 := by decide
/-- CK16. -/
theorem test_ckSum : answer (exec (.ckSum 0 2 [1, 2]) fresh) = some ⟨.ok, 0x0403, []⟩ := by decide
/-- CK18. -/
theorem test_ckSum_short : answer (exec (.ckSum 0 3 [1, 2]) fresh) = some ⟨.invalid, 0, []⟩ := by decide
/-- CK19. -/
theorem test_ckValid_match : answer (exec (.ckValid 0 2 0x0403 [1, 2]) fresh) = some ⟨.ok, 1, []⟩ := by decide
/-- CK20. -/
theorem test_ckValid_mismatch : answer (exec (.ckValid 0 2 0x0404 [1, 2]) fresh) = some ⟨.ok, 0, []⟩ := by decide

/-! ### The decoder -/

/-- DE1, its first iteration: the registers F1 writes. -/
theorem test_decTick_accepts :
    (after (exec .decTick holdsF1)).map (fun t => (t.dec, t.tick, t.rb.rdIdx)) =
      some (⟨1, 0x04D2, 0xFF9C, 0x3451, 0xFFFF, 0, 0, 5, 3, 0x44332211, 0, 19374, 0⟩, some ⟨0, 0, 1⟩, 16) := by decide
/-- DE3, its first iteration: F1x is dropped. -/
theorem test_decTick_drops :
    (after (exec .decTick holdsF1x)).map (fun t => (t.dec, t.tick, t.rb.rdIdx)) =
      some (fresh.dec, some ⟨0, 1, 0⟩, 16) := by decide
/-- F2 of 95_test_vectors.md §2.3 after F1: the timer takes the data and the parameter stays. -/
theorem test_frame_timer :
    (applyFrame 5 frameF2 (applyFrame 5 frameF1 fresh.dec)) =
      ⟨1, 1200, 250, 0x8001, 0x3451, 0, 0, 6, 3, 0x44332211, 1500, 13392, 0⟩ := by decide
/-- EL3 and EL4: the first error stays, the raw one follows. -/
theorem test_frame_error :
    (applyFrame 5 frameF3 fresh.dec).errLatch = 3 ∧ (applyFrame 5 frameF3 fresh.dec).tlmErrRaw = 3 ∧
      (setError 5 (applyFrame 5 frameF3 fresh.dec)).errLatch = 3 := by decide
/-- ST2 and ST6: a low velocity counts, up to 255. -/
theorem test_stall :
    (stallUpdate 5 { fresh.dec with velocity := 2, stallCnt := 9 }).stallCnt = 10 ∧
      (stallUpdate 5 { fresh.dec with velocity := 0, stallCnt := 255 }).stallCnt = 255 ∧
      (stallUpdate 5 { fresh.dec with velocity := 5, stallCnt := 9 }).stallCnt = 0 := by decide
/-- DE4: one drop, two discards, one accept. -/
theorem test_tickValue : tickValue ⟨2, 1, 1⟩ = 0x00020101 := by decide

/-! ### Status, registers, latch, timer, counter -/

/-- HS1 to HS14. -/
theorem test_hookState :
    ([0, 1, 2, 13392, 13393, 13394, 17966, 17967, 17968, 0x7FFF, 0x8000, 0xC5A5, 0xFFFE, 0xFFFF] :
        List (BitVec 16)).map (fun p => hookCode (hookState 0xFFFF fresh.cfg p)) =
      [1, 1, 2, 2, 3, 4, 4, 5, 6, 6, 1, 1, 1, 0] := by decide
/-- SP1, SP3 and SP5. -/
theorem test_status :
    statusWord (withDec fresh { fresh.dec with tlmPosition := 0x87D0, stallCnt := 11 }) = 0x17 ∧
      statusWord (withDec fresh { fresh.dec with tlmPosition := 0x81F4, stallCnt := 11 }) = 0x13 ∧
      statusWord (withDec fresh { fresh.dec with tlmPosition := 0x87D0, stallCnt := 10 }) = 0x10 := by decide
/-- RG10. -/
theorem test_regRd_signed :
    answer (exec (.regRd 0x12) (withDec fresh { fresh.dec with tlmCurrent := 0xFF9C })) =
      some ⟨.ok, 0xFFFFFF9C, []⟩ := by decide
/-- RG5. -/
theorem test_regRd_unassigned : answer (exec (.regRd 5) fresh) = some ⟨.invalid, 0, []⟩ := by decide
/-- RG6. -/
theorem test_regWr : (after (exec (.regWr 0x30 5) fresh)).map (fun t => t.cfg) = some ⟨5, 13393, 17967, false⟩ := by
  decide
/-- RG8. -/
theorem test_regWr_range : answer (exec (.regWr 0x33 2) fresh) = some ⟨.invalid, 0, []⟩ := by decide
/-- EL5. -/
theorem test_errSet_latched :
    (after (exec (.errSet 7) (withDec fresh { fresh.dec with errLatch := 3 }))).map (fun t => t.dec.errLatch) =
      some 3 := by decide
/-- EL6. -/
theorem test_errClear :
    (after (exec .errClear (withDec fresh { fresh.dec with errLatch := 3, tlmErrRaw := 5 }))).map
      (fun t => (t.dec.errLatch, t.dec.tlmErrRaw)) = some (0, 5) := by decide
/-- RF4 and RF6. -/
theorem test_rflQuery :
    answer (exec .rflQuery (withDec fresh { fresh.dec with rflTimer := 1000 })) = some ⟨.ok, 1, []⟩ ∧
      rflStep Config.exampleParams 1000 = 500 ∧ rflStep Config.exampleParams 999 = 0 ∧
      rflStep Config.exampleParams 499 = 499 ∧ rflStep { Config.exampleParams with rflBelowLo := .clear } 499 = 0 := by
  decide
/-- PR1: the last advance. -/
theorem test_prcAdvance : (after (exec .prcAdvance { fresh with prc := 2 })).map (fun t => t.prc) = some 2 := by decide
/-- PR2. -/
theorem test_prcReset : (after (exec .prcReset { fresh with prc := 2 })).map (fun t => t.prc) = some 0 := by decide

/-! ### Witnesses: for each statement with hypotheses, states and operands that meet them, one for each clause -/

/-- EncodeOfDecodeIsIdentity, TransactionReadBackFromBytes. -/
theorem witness_decodes :
    decode .producer 0x1200000000000002 [0x0D, 0x0E] = .ok (.rbPush 2 [0x0D, 0x0E]) ∧
      (Instr.rbPush 2 [0x0D, 0x0E]).wellFormed 1 = true := by decide

/-- IllegalWordsFailIllegal: a word of no row, a word with RSV set, and a word of the other port. -/
theorem witness_illegal :
    (∀ op : Opcode, op.port = .command → (0xFF00000000000000 : CmdWord) &&& op.mask ≠ op.matchWord) ∧
      (∀ op : Opcode, op.port = .command → (0x1500000100000000 : CmdWord) &&& op.mask ≠ op.matchWord) ∧
      ∀ op : Opcode, op.port = .producer → (0x1400000000000000 : CmdWord) &&& op.mask ≠ op.matchWord := by
  refine ⟨?_, ?_, ?_⟩ <;> intro op <;> cases op <;> decide

/-- StrayPayloadFails: both clauses. -/
theorem witness_stray :
    (Instr.rbPeek.opcode.takesPayload = false ∧ ([1] : List Byte) ≠ [] ∧ fresh.rb.init = false) ∧
      (Instr.rbPeek.opcode.takesPayload = false ∧ ([1] : List Byte) ≠ [] ∧ holdsOne.rb.init = true) ∧
      Instr.errClear.opcode.takesPayload = false ∧
        ¬ (Instr.errClear = .rbReset ∨ (∃ count, Instr.errClear = .rbPoll count) ∨ Instr.errClear = .rbPeek ∨
          Instr.errClear = .rbLength ∨ Instr.errClear = .decTick) := by
  refine ⟨by decide, by decide, by decide, ?_⟩
  rintro (h | ⟨_, h⟩ | h | h | h) <;> cases h

/-- A command waits at the command port. -/
def asks (i : Instr) (s : State) : State := s.arrive .command (encode i)

/-- A push waits at the producer port. -/
def pushes (count : Word) (bs : List Byte) (s : State) : State := s.arrive .producer (encode (.rbPush count bs))

/-- StepRunsTheDecodedInstruction: both clauses. -/
theorem witness_step_runs :
    (pick (asks .rbPeek holdsOne) = some .command ∧ (asks .rbPeek holdsOne).tick = none ∧
        (asks .rbPeek holdsOne).cmdIn = [⟨0x1400000000000000, []⟩] ∧
        decode .command 0x1400000000000000 [] = .ok .rbPeek) ∧
      pick (pushes 1 [7] holdsOne) = some .producer ∧
      (pushes 1 [7] holdsOne).prodIn = [⟨0x1200000000000001, [7]⟩] ∧
      decode .producer 0x1200000000000001 [7] = .ok (.rbPush 1 [7]) := by decide

/-- StepWithoutANewCommand: a tick goes on, and nothing waits. -/
theorem witness_no_new_command :
    (pick { holdsF1 with tick := some ⟨3, 0, 0⟩ } = some .command) ∧ fresh.tick = none ∧ fresh.cmdIn = [] ∧
      fresh.prodIn = [] := by decide

/-- EitherPortMayGoFirst: the three clauses. -/
theorem witness_ports :
    (prodReady (asks .rbPeek (pushes 1 [7] holdsOne)) = true ∧ cmdReady (asks .rbPeek (pushes 1 [7] holdsOne)) = true) ∧
      (prodReady (pushes 1 [7] holdsOne) = true ∧ cmdReady (pushes 1 [7] holdsOne) = false) ∧
      prodReady (asks .rbPeek holdsOne) = false ∧ cmdReady (asks .rbPeek holdsOne) = true := by decide

/-- OneResponsePerCommand, StepKeepsTheInvariant, StepNeverStops, LatchedErrorStaysUntilCleared: a step from a state
that meets the invariant and holds an error. -/
theorem witness_step :
    ∃ s t : State, Inv s ∧ step s = .next t ∧ s.dec.errLatch ≠ 0 ∧ t.cmdOut ≠ s.cmdOut :=
  ⟨asks .rbPeek (withDec holdsOne { fresh.dec with errLatch := 3 }), _, inv_of (by decide) (by decide), rfl, by decide,
    by decide⟩

/-- InvariantAtPowerOn: the least and the greatest RB_MAX_BYTES. -/
theorem witness_params :
    ({ Config.exampleParams with rbMaxBytes := 16 } : Params).wf ∧
      ({ Config.exampleParams with rbMaxBytes := 4294967294 } : Params).wf := by decide

/-- RingInvariantsInEveryRun: a run that initializes the buffer. -/
theorem witness_reachable : ∃ s : State, Reachable s ∧ s.rb.init = true :=
  ⟨_, .step _ _ (.arrive .command (encode (.rbInit 1 4)) fresh (.powerOn _ (by decide))) rfl, by decide⟩

/-- RbInitResult: N at RB_MAX_BYTES and just above, CAP 1 and 2, ES 0; with a storage of 16 bytes. -/
theorem witness_rbInit :
    let m := (State.powerOn { Config.exampleParams with rbMaxBytes := 16 }).params.rbMaxBytes
    m < (17 : Word).toNat * (1 : BitVec 16).toNat ∧ (1 : Word).toNat < 2 ∧
      ((4 : BitVec 16) ≠ 0 ∧ 2 ≤ (4 : Word).toNat ∧ (4 : Word).toNat * (4 : BitVec 16).toNat ≤ m) ∧
      (8 : BitVec 16) ≠ 0 ∧ 2 ≤ (2 : Word).toNat ∧ (2 : Word).toNat * (8 : BitVec 16).toNat ≤ m := by decide

/-- RbPushResult: an uninitialized buffer; a wrong payload length; one element too many; an exact fill that wraps. -/
theorem witness_rbPush :
    (Inv fresh ∧ fresh.rb.init = false) ∧ Inv holdsOne ∧ holdsOne.rb.init = true ∧
      ([1] : List Byte).length ≠ (2 : Word).toNat * holdsOne.rb.es.toNat ∧
      (([1, 2, 3, 4] : List Byte).length = (4 : Word).toNat * holdsOne.rb.es.toNat ∧
        holdsOne.rb.cap.toNat < holdsOne.rb.length + (4 : Word).toNat) ∧
      (3 : Word) ≠ 0 ∧ ([1, 2, 3] : List Byte).length = (3 : Word).toNat * holdsOne.rb.es.toNat ∧
      holdsOne.rb.length + (3 : Word).toNat = holdsOne.rb.cap.toNat :=
  ⟨⟨inv_fresh, by decide⟩, inv_holdsOne, by decide⟩

/-- RbPollResult: an empty buffer; one element too many; the last element. -/
theorem witness_rbPoll :
    (Inv holdsNone ∧ holdsNone.rb.init = true ∧ holdsNone.rb.length = 0 ∧ (1 : Word) ≠ 0) ∧ Inv holdsOne ∧
      holdsOne.rb.init = true ∧ (0 < holdsOne.rb.length ∧ holdsOne.rb.length < (2 : Word).toNat) ∧
      (1 : Word).toNat ≤ holdsOne.rb.length :=
  ⟨⟨inv_holdsNone, by decide⟩, inv_holdsOne, by decide⟩

/-- RbPeekResult, RbResetResult, RbLengthResult, BufferIsAQueue, ResetActsAsFreshInit: uninitialized, empty and full
buffers. -/
theorem witness_buffers :
    (Inv fresh ∧ fresh.rb.init = false) ∧ (Inv holdsNone ∧ holdsNone.rb.init = true ∧ holdsNone.rb.length = 0) ∧
      Inv holdsFour ∧ holdsFour.rb.init = true ∧ holdsFour.rb.full = true ∧ holdsFour.rb.length = 4 :=
  ⟨⟨inv_fresh, by decide⟩, ⟨inv_holdsNone, by decide⟩, inv_holdsFour, by decide⟩

/-- BufferIsAQueue: an accepted push, a poll answered OK and a peek answered OK. -/
theorem witness_queue :
    (∃ t, Accepted (.rbPush 3 [1, 2, 3]) holdsOne t) ∧
      (∃ t, exec (.rbPoll 1) holdsOne = .next t ∧ t.cmdOut = ⟨.ok, 0, [0x0C]⟩ :: holdsOne.cmdOut) ∧
      ∃ t, exec .rbPeek holdsOne = .next t ∧ t.cmdOut = ⟨.ok, 0, [0x0C]⟩ :: holdsOne.cmdOut :=
  ⟨⟨_, rfl, 0, [], rfl⟩, ⟨_, rfl, rfl⟩, _, rfl, rfl⟩

/-- PushesLessPollsIsLength: an accepted RB_INIT, then an accepted push and poll. -/
theorem witness_run :
    ∃ s0 t : State, Inv fresh ∧ Accepted (.rbInit 1 4) fresh s0 ∧
      (∀ i ∈ [Instr.rbPush 2 [1, 2], .rbPoll 1], usesBuffer i = true) ∧
      AcceptedRun [.rbPush 2 [1, 2], .rbPoll 1] s0 t :=
  ⟨_, _, inv_fresh, ⟨rfl, 0, [], rfl⟩, by decide,
    .cons _ _ _ _ _ ⟨rfl, 0, [], rfl⟩ (.cons _ _ _ _ _ ⟨rfl, 0, [1], rfl⟩ (.nil _))⟩

/-- ResetActsAsFreshInit: both commands answer on a buffer in use. -/
theorem witness_reset :
    ∃ r f : State, Inv holdsFour ∧ exec .rbReset holdsFour = .next r ∧
      exec (.rbInit holdsFour.rb.es holdsFour.rb.cap) holdsFour = .next f :=
  ⟨_, _, inv_holdsFour, rfl, rfl⟩

/-- UninitializedBufferRefusesItsCommands: RB_INIT initializes. -/
theorem witness_initializes :
    ∃ t, exec (.rbInit 1 4) fresh = .next t ∧ fresh.rb.init = false ∧ t.rb.init = true :=
  ⟨_, rfl, rfl, rfl⟩

/-- FailedCommandsChangeNothing: RB_LENGTH's failure and another. -/
theorem witness_fails :
    (∃ t, runTxn .command ⟨0x1500000000000000, []⟩ fresh = .next t ∧
        responses .command t = ⟨.uninit, 0xFFFFFFFF, []⟩ :: responses .command fresh) ∧
      ∃ t, runTxn .producer ⟨0x1200000000000004, [1, 2, 3, 4]⟩ holdsOne = .next t ∧
        responses .producer t = ⟨.overflow, 0, []⟩ :: responses .producer holdsOne :=
  ⟨⟨_, rfl, rfl⟩, _, rfl, rfl⟩

/-- OnlyNamedCommandsWriteState: commands that write, each its register. -/
theorem witness_writes :
    (∃ t, exec (.rbPush 3 [1, 2, 3]) holdsOne = .next t ∧ t.rb.wrIdx ≠ holdsOne.rb.wrIdx ∧ t.rb.full = true ∧
        holdsOne.rb.full = false) ∧
      (∃ t, exec (.rbPoll 1) holdsOne = .next t ∧ t.rb.rdIdx ≠ holdsOne.rb.rdIdx) ∧
      (∃ t, exec .decTick holdsNoise = .next t ∧ t.rb.full = false ∧ holdsNoise.rb.full = true) ∧
      (∃ t, exec (.rbInit 1 4) fresh = .next t ∧ t.rb.init ≠ fresh.rb.init) ∧
      (∃ t, exec (.errSet 7) fresh = .next t ∧ t.dec.errLatch ≠ fresh.dec.errLatch) ∧
      (∃ t, exec .decTick holdsF1 = .next t ∧ t.tick ≠ holdsF1.tick ∧
        t.dec ≠ { holdsF1.dec with errLatch := t.dec.errLatch, rflTimer := t.dec.rflTimer }) ∧
      (∃ t, exec .rflQuery (withDec fresh { fresh.dec with rflTimer := 500 }) = .next t ∧ t.dec.rflTimer ≠ 500) ∧
      (∃ t, exec (.regWr 0x30 5) fresh = .next t ∧ t.cfg ≠ fresh.cfg) ∧
      ∃ t, exec .prcAdvance fresh = .next t ∧ t.prc ≠ fresh.prc :=
  ⟨⟨_, rfl, by decide⟩, ⟨_, rfl, by decide⟩, ⟨_, rfl, by decide⟩, ⟨_, rfl, by decide⟩, ⟨_, rfl, by decide⟩,
    ⟨_, rfl, by decide⟩, ⟨_, rfl, by decide⟩, ⟨_, rfl, by decide⟩, _, rfl, by decide⟩

/-- FletcherAsWeightedSums and FletcherRangeFacts. -/
theorem witness_fletcher :
    ([0xC8] : List Byte) ≠ [] ∧ (254 : Nat) < 255 ∧ ∀ b ∈ ([0x00, 0xFF] : List Byte), b = 0x00 ∨ b = 0xFF := by decide

/-- CkSumResult and CkValidResult: a payload of the wrong and of the right length, none, and an expected byte 0xFF. -/
theorem witness_ck :
    ([1, 2] : List Byte).length ≠ (3 : BitVec 16).toNat ∧ ([1, 2] : List Byte).length = (2 : BitVec 16).toNat ∧
      ([] : List Byte).length = (0 : BitVec 16).toNat ∧ (0x00FF : BitVec 16).toNat % 256 = 0xFF ∧
      (0xFF00 : BitVec 16).toNat / 256 = 0xFF := by decide

/-- ValidFrameUpdatesTelemetry: a frame with tag 0 and one with tag 1. -/
theorem witness_tags :
    (frameF1.getD 9 0).toNat / 8 % 2 = 0 ∧ (frameF2.getD 9 0).toNat / 8 % 2 = 1 := by decide

/-- StallCounterDebounces: frame F1 repeated is a low-velocity frame. -/
theorem witness_stall :
    let s := withDec fresh { fresh.dec with tlmPosition := 0x3451 }
    s.dec.stallCnt = 0 ∧ s.params.stallLimit < 255 ∧
      ∀ n < [frameF1, frameF1].length,
        (([frameF1, frameF1].take (n + 1)).foldl (fun d f => applyFrame s.params.noiseTh f d) s.dec).velocity.toNat <
          s.params.noiseTh.toNat := by decide

/-- A byte buffer that holds 15 bytes, one below a frame. -/
def holdsFifteen : State := ring 1 16 15 0 false (List.replicate 16 0)

/-- DecoderIterationResult, DecTickResult: 15 bytes; 16 without sync; a wrong frame; a right one. -/
theorem witness_iteration :
    (Inv holdsFifteen ∧ holdsFifteen.rb.init = true ∧ holdsFifteen.rb.es = 1 ∧ (contents holdsFifteen).length < 16) ∧
      (Inv holdsNoise ∧ holdsNoise.rb.init = true ∧ holdsNoise.rb.es = 1 ∧ 16 ≤ (contents holdsNoise).length ∧
        (contents holdsNoise).head? ≠ some 0xFE) ∧
      (Inv holdsF1x ∧ 16 ≤ (contents holdsF1x).length ∧ (contents holdsF1x).head? = some 0xFE ∧
        fletcher16 ((contents holdsF1x).take 14) 0 ≠ (contents holdsF1x).getD 15 0 ++ (contents holdsF1x).getD 14 0) ∧
      Inv holdsF1 ∧ 16 ≤ (contents holdsF1).length ∧ (contents holdsF1).head? = some 0xFE ∧
      fletcher16 ((contents holdsF1).take 14) 0 = (contents holdsF1).getD 15 0 ++ (contents holdsF1).getD 14 0 :=
  ⟨⟨inv_of (by decide) (by decide), by decide⟩, ⟨inv_holdsNoise, by decide⟩, ⟨inv_holdsF1x, by decide⟩, inv_holdsF1,
    by decide⟩

/-- DecTickResult: an uninitialized buffer, and one of 2-byte elements. -/
theorem witness_decTick : fresh.rb.init = false ∧ holdsPair.rb.init = true ∧ holdsPair.rb.es ≠ 1 := by decide

/-- TickDecodesTheByteStream: a waiting DEC_TICK. -/
theorem witness_tick :
    let s := asks .decTick holdsF1
    Inv s ∧ s.rb.init = true ∧ s.rb.es = 1 ∧ s.tick = none ∧ s.prodIn = [] ∧ s.cmdIn = [⟨0x3000000000000000, []⟩] ∧
      decode .command 0x3000000000000000 [] = .ok .decTick :=
  ⟨inv_of (by decide) (by decide), by decide⟩

/-- TickGoesOnWhileAFrameIsHeld: exactly 16 bytes. -/
theorem witness_tick_goes_on :
    Inv { holdsF1 with tick := some ⟨3, 0, 0⟩ } ∧
      pick { holdsF1 with tick := some ⟨3, 0, 0⟩ } = some .command ∧ holdsF1.rb.length = 16 :=
  ⟨inv_ticking, by decide⟩

/-- SmallBufferNeverDecodes: capacity 15, full. -/
theorem witness_small :
    let s := ring 1 15 0 0 true (List.replicate 15 0xFE)
    Inv s ∧ s.rb.init = true ∧ s.rb.es = 1 ∧ s.tick = none ∧ s.rb.cap.toNat < 16 ∧ s.rb.full = true ∧
      (1 : Word) ≠ 0 ∧ ([1] : List Byte).length = (1 : Word).toNat :=
  ⟨inv_of (by decide) (by decide), by decide⟩

/-- ProducerTouchesOnlyTheBuffer, ProducerOnlyAppends: a push in the middle of a tick. -/
theorem witness_producer :
    let s := { pushes 1 [7] holdsF1 with tick := some ⟨3, 0, 0⟩, turns := [.producer] }
    Inv s ∧ s.rb.init = true ∧ pick s = some .producer ∧ ∃ t, step s = .next t ∧ t.prodOut = [⟨.ok, 0, []⟩] :=
  ⟨inv_of (by decide) (by decide), by decide, by decide, _, rfl, rfl⟩

/-- PushCommutesWithOtherCommands. -/
theorem witness_commutes : leavesBuffer (.errSet 7) = true := by decide

/-- HookStateOfEveryPosition: one position for each clause, with the reset thresholds. -/
theorem witness_hookState :
    let c := fresh.cfg
    ((0xFFFF : BitVec 16) = fresh.params.posSentinel) ∧ (0x8000 ≤ (0x8000 : BitVec 16).toNat) ∧
      (1 : BitVec 16).toNat ≤ c.closedTh.toNat ∧ c.closedTh.toNat < (2 : BitVec 16).toNat ∧ 13393 = c.midTh ∧
      17967 = c.openTh ∧ (13392 : BitVec 16).toNat < c.midTh.toNat ∧
      (c.midTh.toNat < (13394 : BitVec 16).toNat ∧ (17966 : BitVec 16).toNat < c.openTh.toNat) ∧
      c.openTh.toNat < (17968 : BitVec 16).toNat := by decide

/-- RegWrResult: the greatest value of each register, the least one refused, and the numbers around the range. -/
theorem witness_regWr :
    (0xFFFF : Word).toNat < 0x10000 ∧ (1 : Word).toNat ≤ 1 ∧ (0x002F : BitVec 16).toNat < 0x0030 ∧
      0x0033 < (0x0034 : BitVec 16).toNat ∧
      ((0x0032 : BitVec 16).toNat ≤ 0x0032 ∧ 0x10000 ≤ (0x10000 : Word).toNat) ∧ 2 ≤ (2 : Word).toNat := by decide

/-- ErrorLatchCommands: an empty and a held latch. -/
theorem witness_latch :
    fresh.dec.errLatch = 0 ∧ (withDec fresh { fresh.dec with errLatch := 3 }).dec.errLatch ≠ 0 := by decide

/-- RflQueryResult and RflStaircaseHasTwoPlateaus: timers at and below the two plateaus. -/
theorem witness_rfl :
    let p := fresh.params
    p.rflHi.toNat ≤ (1000 : Word).toNat ∧
      ((999 : Word).toNat < p.rflHi.toNat ∧ p.rflLo.toNat ≤ (999 : Word).toNat) ∧
      ((499 : Word).toNat < p.rflHi.toNat ∧ (499 : Word).toNat < p.rflLo.toNat) ∧ 0 < p.rflLo.toNat ∧
      p.rflLo.toNat < p.rflHi.toNat := by decide

/-- RecoveryCounterCommands: the greatest legal value. -/
theorem witness_prc : ({ fresh with prc := 2 } : State).prc.toNat ≤ 2 := by decide

end Sys2Proof.Machine
end

section
/-! SUPPORT. What a command gives its port and what it leaves of the queues: one answer, or for DEC_TICK a tick in
progress (spec/10_state.md R23, R31, spec/30_encoding.md R100, spec/42_decoder.md R213). -/

namespace Sys2Proof.Machine

/-! ### The port side of a state -/

/-- `u` has the queues, the responses and the tick of `s`. -/
structure SamePorts (s u : State) : Prop where
  tick : u.tick = s.tick
  cmdIn : u.cmdIn = s.cmdIn
  prodIn : u.prodIn = s.prodIn
  cmdOut : u.cmdOut = s.cmdOut
  prodOut : u.prodOut = s.prodOut

theorem SamePorts.refl (s : State) : SamePorts s s := ⟨rfl, rfl, rfl, rfl, rfl⟩

/-- The result is the next state in which port `p` has given exactly one response more than in `s`, the queues and
the tick those of `s`. -/
def Answers (p : Port) (s : State) (r : Result) : Prop :=
  ∃ st v d u, r = .next (respond p st v d u) ∧ SamePorts s u

theorem answers_of_eq {p : Port} {st : Status} {v : Word} {d : List Byte} {s u : State} {r : Result}
    (hr : r = .next (respond p st v d u)) (h : SamePorts s u) : Answers p s r := ⟨st, v, d, u, hr, h⟩

theorem answers_respond (p : Port) (st : Status) (v : Word) (d : List Byte) (s : State) :
    Answers p s (.next (respond p st v d s)) := answers_of_eq rfl (.refl s)

theorem answers_fail (p : Port) (st : Status) (s : State) : Answers p s (.next (fail p st s)) :=
  answers_respond p st 0 [] s

theorem Answers.next {p : Port} {s : State} {r : Result} (h : Answers p s r) : ∃ t, r = .next t := by
  obtain ⟨st, v, d, u, rfl, -⟩ := h
  exact ⟨_, rfl⟩

/-! ### The storage operations leave the port side alone -/

theorem copyIn_samePorts {s t : State} {bs : List Byte} (h : copyIn s bs = .ok t) : SamePorts s t := by
  unfold copyIn at h
  simp only at h
  split at h
  · cases h
  · next s' h1 =>
    obtain ⟨-, rfl⟩ := memWrite_ok h1
    obtain ⟨-, rfl⟩ := memWrite_ok h
    exact ⟨rfl, rfl, rfl, rfl, rfl⟩

theorem consume_samePorts {s t : State} {n : Nat} {out : List Byte} (h : consume s n = .ok (out, t)) :
    SamePorts s t := by
  obtain ⟨-, rfl⟩ := consume_ok h
  exact ⟨rfl, rfl, rfl, rfl, rfl⟩

theorem decIter_samePorts {s t : State} {r : IterOutcome} (h : decIter s = .ok (r, t)) : SamePorts s t := by
  obtain ⟨-, rfl, -⟩ | ⟨-, -, out, hc⟩ | ⟨-, f, s', hc, ⟨-, -, rfl⟩ | ⟨-, -, rfl⟩⟩ := decIter_cases h
  · exact .refl t
  · exact consume_samePorts hc
  · exact consume_samePorts hc
  · obtain ⟨htick, hcmdIn, hprodIn, hcmdOut, hprodOut⟩ := consume_samePorts hc
    exact ⟨htick, hcmdIn, hprodIn, hcmdOut, hprodOut⟩

/-! ### One answer per command

RB_PUSH, RB_POLL and RB_PEEK alone can fault, and only in states that break the invariant. -/

theorem execRbInit_answers (es : BitVec 16) (cap : Word) (s : State) : Answers .command s (execRbInit es cap s) := by
  unfold execRbInit
  split
  · exact answers_fail ..
  · split
    · exact answers_fail ..
    · next hfits =>
      rw [memWrite_total (.inr (by rw [List.length_replicate]; omega))]
      exact answers_of_eq rfl ⟨rfl, rfl, rfl, rfl, rfl⟩

theorem execRbReset_answers (s : State) : Answers .command s (execRbReset s) := by
  unfold execRbReset
  split
  · exact answers_fail ..
  · exact answers_of_eq rfl ⟨rfl, rfl, rfl, rfl, rfl⟩

theorem execRbPush_answers_or_faults (count : Word) (payload : List Byte) (s : State) :
    Answers .producer s (execRbPush count payload s) ∨ ∃ e, execRbPush count payload s = .fault e := by
  unfold execRbPush
  split_ifs
  · exact .inl (answers_fail ..)
  · exact .inl (answers_fail ..)
  · exact .inl (answers_fail ..)
  · exact .inl (answers_fail ..)
  · cases h : copyIn s payload with
    | error e => exact .inr ⟨e, rfl⟩
    | ok s' =>
      obtain ⟨htick, hcmdIn, hprodIn, hcmdOut, hprodOut⟩ := copyIn_samePorts h
      exact .inl (answers_of_eq rfl ⟨htick, hcmdIn, hprodIn, hcmdOut, hprodOut⟩)

theorem execRbPoll_answers_or_faults (count : Word) (s : State) :
    Answers .command s (execRbPoll count s) ∨ ∃ e, execRbPoll count s = .fault e := by
  unfold execRbPoll
  split_ifs
  · exact .inl (answers_fail ..)
  · exact .inl (answers_fail ..)
  · exact .inl (answers_fail ..)
  · exact .inl (answers_fail ..)
  · cases h : consume s (count.toNat * s.rb.es.toNat) with
    | error e => exact .inr ⟨e, rfl⟩
    | ok o => exact .inl (answers_of_eq rfl (consume_samePorts h))

theorem execRbPeek_answers_or_faults (s : State) :
    Answers .command s (execRbPeek s) ∨ ∃ e, execRbPeek s = .fault e := by
  unfold execRbPeek
  split_ifs
  · exact .inl (answers_fail ..)
  · exact .inl (answers_fail ..)
  · cases memRead s s.rb.rdIdx.toNat s.rb.es.toNat with
    | error e => exact .inr ⟨e, rfl⟩
    | ok out => exact .inl (answers_respond ..)

theorem execRbLength_answers (s : State) : Answers .command s (execRbLength s) := by
  unfold execRbLength
  split
  · exact answers_respond ..
  · exact answers_respond ..

theorem execCkSum_answers (seed len : BitVec 16) (payload : List Byte) (s : State) :
    Answers .command s (execCkSum seed len payload s) := by
  unfold execCkSum
  split
  · exact answers_fail ..
  · exact answers_respond ..

theorem execCkValid_answers (seed len expected : BitVec 16) (payload : List Byte) (s : State) :
    Answers .command s (execCkValid seed len expected payload s) := by
  unfold execCkValid
  split
  · exact answers_fail ..
  · exact answers_respond ..

theorem execRegRd_answers (reg : BitVec 16) (s : State) : Answers .command s (execRegRd reg s) := by
  unfold execRegRd
  split
  · exact answers_fail ..
  · exact answers_respond ..

theorem execRegWr_answers (reg : BitVec 16) (val : Word) (s : State) : Answers .command s (execRegWr reg val s) := by
  unfold execRegWr
  split
  · exact answers_fail ..
  · split
    · exact answers_fail ..
    · exact answers_of_eq rfl ⟨rfl, rfl, rfl, rfl, rfl⟩

/-- Every command but DEC_TICK answers its own port, or faults. -/
theorem exec_answers_or_faults {i : Instr} (hi : i ≠ .decTick) (s : State) :
    Answers i.port s (exec i s) ∨ ∃ e, exec i s = .fault e := by
  cases i with
  | rbInit es cap => exact .inl (execRbInit_answers es cap s)
  | rbReset => exact .inl (execRbReset_answers s)
  | rbPush count payload => exact execRbPush_answers_or_faults count payload s
  | rbPoll count => exact execRbPoll_answers_or_faults count s
  | rbPeek => exact execRbPeek_answers_or_faults s
  | rbLength => exact .inl (execRbLength_answers s)
  | ckSum seed len payload => exact .inl (execCkSum_answers seed len payload s)
  | ckValid seed len expected payload => exact .inl (execCkValid_answers seed len expected payload s)
  | decTick => exact absurd rfl hi
  | regRd reg => exact .inl (execRegRd_answers reg s)
  | regWr reg val => exact .inl (execRegWr_answers reg val s)
  | errSet code => exact .inl (answers_of_eq rfl ⟨rfl, rfl, rfl, rfl, rfl⟩)
  | errClear => exact .inl (answers_of_eq rfl ⟨rfl, rfl, rfl, rfl, rfl⟩)
  | rflQuery => exact .inl (answers_of_eq rfl ⟨rfl, rfl, rfl, rfl, rfl⟩)
  | prcAdvance => exact .inl (answers_of_eq rfl ⟨rfl, rfl, rfl, rfl, rfl⟩)
  | prcReset => exact .inl (answers_of_eq rfl ⟨rfl, rfl, rfl, rfl, rfl⟩)

/-- A rejected transaction is answered on the port it came to. -/
theorem reject_answers (p : Port) (e : DecodeError) (s : State) : Answers p s (.next (reject p e s)) := by
  cases e with
  | unknownOpcode => exact answers_fail ..
  | reservedBits => exact answers_fail ..
  | wrongPort => exact answers_fail ..
  | strayPayload i =>
    simp only [reject]
    split
    · exact answers_respond ..
    · exact answers_fail ..

/-! ### A tick answers when it finds no frame, and otherwise stays in progress -/

/-- What one commit of a tick can do (R204, R213). -/
theorem tickStep_cases {c : TickCounts} {s t : State} (h : tickStep c s = .next t) :
    (∃ u, decIter s = .ok (.noFrame, u) ∧ t = respond .command .ok (tickValue c) [] { u with tick := none }) ∨
    ∃ r u, r ≠ .noFrame ∧ decIter s = .ok (r, u) ∧ t = { u with tick := some (c.count r) } := by
  unfold tickStep at h
  split at h
  · cases h
  · next u hd =>
    cases h
    exact .inl ⟨u, hd, rfl⟩
  · next r u hr hd =>
    cases h
    exact .inr ⟨r, u, hr, hd, rfl⟩

/-- A commit of a tick answers the command port and ends the tick, or leaves a tick in progress. -/
theorem tickStep_answers_or_goes_on {c : TickCounts} {s t : State} (h : tickStep c s = .next t) :
    Answers .command { s with tick := none } (.next t) ∨ ∃ c', SamePorts { s with tick := some c' } t := by
  obtain ⟨u, hd, rfl⟩ | ⟨r, u, -, hd, rfl⟩ := tickStep_cases h
  · obtain ⟨-, hcmdIn, hprodIn, hcmdOut, hprodOut⟩ := decIter_samePorts hd
    exact .inl (answers_of_eq rfl ⟨rfl, hcmdIn, hprodIn, hcmdOut, hprodOut⟩)
  · obtain ⟨-, hcmdIn, hprodIn, hcmdOut, hprodOut⟩ := decIter_samePorts hd
    exact .inr ⟨c.count r, rfl, hcmdIn, hprodIn, hcmdOut, hprodOut⟩

/-- DEC_TICK on an idle command port answers it, or leaves a tick in progress. -/
theorem execDecTick_answers_or_goes_on {s t : State} (idle : s.tick = none) (h : execDecTick s = .next t) :
    Answers .command s (.next t) ∨ ∃ c, SamePorts { s with tick := some c } t := by
  unfold execDecTick at h
  split_ifs at h
  · exact .inl (h ▸ answers_fail ..)
  · exact .inl (h ▸ answers_fail ..)
  · have hs : { s with tick := none } = s := by rw [← idle]
    simpa only [hs] using tickStep_answers_or_goes_on h

end Sys2Proof.Machine
end

section
/-! SUPPORT. The two ports keep their books: a commit moves one command from a queue to the responses, or to the tick
in progress (spec/10_state.md R23, R31, spec/30_encoding.md R100). -/

namespace Sys2Proof.Machine

/-! ### A transaction runs on the port that accepts its opcode -/

theorem operands_opcode (op : Opcode) (w : CmdWord) (payload : List Byte) : (operands op w payload).opcode = op := by
  cases op <;> rfl

/-- A port decodes only the instructions sent to it (R104). -/
theorem port_of_decode {p : Port} {w : CmdWord} {payload : List Byte} {i : Instr} (h : decode p w payload = .ok i) :
    i.port = p := by
  unfold decode at h
  split at h
  · cases h
  · next op _ =>
    split_ifs at h with _ hport
    cases h
    rw [Instr.port, operands_opcode, not_not.mp hport]

/-- The producer port answers every transaction it runs. -/
theorem runTxn_producer_answers {x : Txn} {s t : State} (h : runTxn .producer x s = .next t) :
    Answers .producer s (.next t) := by
  unfold runTxn at h
  split at h
  · exact h ▸ reject_answers ..
  · next i hd =>
    have hport := port_of_decode hd
    have hi : i ≠ .decTick := by rintro rfl; cases hport
    rcases exec_answers_or_faults hi s with ha | ⟨e, he⟩
    · rwa [h, hport] at ha
    · rw [h] at he; cases he

/-- An idle command port answers the transaction it runs, or works on the tick the transaction starts. -/
theorem runTxn_command_answers_or_goes_on {x : Txn} {s t : State} (idle : s.tick = none)
    (h : runTxn .command x s = .next t) :
    Answers .command s (.next t) ∨ ∃ c, SamePorts { s with tick := some c } t := by
  unfold runTxn at h
  split at h
  · exact .inl (h ▸ reject_answers ..)
  · next i hd =>
    by_cases hi : i = .decTick
    · subst hi
      exact execDecTick_answers_or_goes_on idle h
    · rcases exec_answers_or_faults hi s with ha | ⟨e, he⟩
      · rw [h, port_of_decode hd] at ha
        exact .inl ha
      · rw [h] at he; cases he

/-! ### The books -/

/-- Between `s` and `t` no command got lost or was answered twice: the sums of both ports agree, responses were added
and commands taken in order. -/
structure Balanced (s t : State) : Prop where
  producer : t.prodOut.length + t.prodIn.length = s.prodOut.length + s.prodIn.length
  command : t.cmdOut.length + t.cmdIn.length + (if t.tick.isSome then 1 else 0) =
    s.cmdOut.length + s.cmdIn.length + (if s.tick.isSome then 1 else 0)
  prodOut : s.prodOut <:+ t.prodOut
  cmdOut : s.cmdOut <:+ t.cmdOut
  prodIn : t.prodIn <:+ s.prodIn
  cmdIn : t.cmdIn <:+ s.cmdIn

theorem Balanced.refl (s : State) : Balanced s s :=
  ⟨rfl, rfl, List.suffix_rfl, List.suffix_rfl, List.suffix_rfl, List.suffix_rfl⟩

/-- Taking the oldest transaction of the producer port and answering it balances. -/
theorem balanced_of_producer_answers {s t : State} {x : Txn} {xs : List Txn} (hin : s.prodIn = x :: xs)
    (h : Answers .producer { s with prodIn := xs } (.next t)) : Balanced s t := by
  obtain ⟨st, v, d, u, ⟨⟩, htick, hcmdIn, hprodIn, hcmdOut, hprodOut⟩ := h
  constructor
  case producer => simp [hprodIn, hprodOut, hin]; omega
  all_goals simp [htick, hcmdIn, hprodIn, hcmdOut, hprodOut, hin]

/-- Taking the oldest transaction of an idle command port and answering it balances. -/
theorem balanced_of_command_answers {s t : State} {x : Txn} {xs : List Txn} (hin : s.cmdIn = x :: xs)
    (h : Answers .command { s with cmdIn := xs } (.next t)) : Balanced s t := by
  obtain ⟨st, v, d, u, ⟨⟩, htick, hcmdIn, hprodIn, hcmdOut, hprodOut⟩ := h
  constructor
  case command => simp [htick, hcmdIn, hcmdOut, hin]; omega
  all_goals simp [hcmdIn, hprodIn, hcmdOut, hprodOut, hin]

/-- Taking the oldest transaction of an idle command port and working on its tick balances. -/
theorem balanced_of_tick_starts {s t : State} {x : Txn} {xs : List Txn} {c : TickCounts} (idle : s.tick = none)
    (hin : s.cmdIn = x :: xs) (h : SamePorts { s with cmdIn := xs, tick := some c } t) : Balanced s t := by
  obtain ⟨htick, hcmdIn, hprodIn, hcmdOut, hprodOut⟩ := h
  constructor
  case command => simp [htick, hcmdIn, hcmdOut, hin, idle]; omega
  all_goals simp [hcmdIn, hprodIn, hcmdOut, hprodOut, hin]

/-- Ending a tick with its answer balances, and so does going on with it. -/
theorem balanced_of_tickStep {s t : State} {c : TickCounts} (busy : s.tick = some c) (h : tickStep c s = .next t) :
    Balanced s t := by
  rcases tickStep_answers_or_goes_on h with
    ⟨st, v, d, u, ⟨⟩, htick, hcmdIn, hprodIn, hcmdOut, hprodOut⟩ | ⟨c', htick, hcmdIn, hprodIn, hcmdOut, hprodOut⟩
  · constructor
    case command => simp [htick, hcmdIn, hcmdOut, busy]; omega
    all_goals simp [hcmdIn, hprodIn, hcmdOut, hprodOut]
  · constructor <;> simp [htick, hcmdIn, hprodIn, hcmdOut, hprodOut, busy]

/-- One commit of a port balances. -/
theorem balanced_of_servePort {p : Port} {s t : State} (h : servePort p s = .next t) : Balanced s t := by
  cases p with
  | producer =>
    cases hin : s.prodIn with
    | nil => simp only [servePort, hin] at h; cases h; exact .refl s
    | cons x xs => exact balanced_of_producer_answers hin (runTxn_producer_answers (serve_producer hin ▸ h))
  | command =>
    cases htick : s.tick with
    | some c => exact balanced_of_tickStep htick (serve_tick htick ▸ h)
    | none =>
      cases hin : s.cmdIn with
      | nil => simp only [servePort, htick, hin] at h; cases h; exact .refl s
      | cons x xs =>
        rcases runTxn_command_answers_or_goes_on (s := { s with cmdIn := xs }) htick
          (serve_command htick hin ▸ h) with ha | ⟨c, hc⟩
        · exact balanced_of_command_answers hin ha
        · exact balanced_of_tick_starts htick hin hc

/-- One step balances: using up a turn touches no queue. -/
theorem balanced_of_step {s t : State} (h : step s = .next t) : Balanced s t := by
  rcases step_cases s with ⟨-, hs⟩ | ⟨p, -, hs⟩
  · cases hs.symm.trans h
    exact .refl s
  · obtain ⟨hp, hc, hpo, hco, hpi, hci⟩ := balanced_of_servePort (hs.symm.trans h)
    simp only [afterPick_prodOut, afterPick_prodIn, afterPick_cmdOut, afterPick_cmdIn, afterPick_tick]
      at hp hc hpo hco hpi hci
    exact ⟨hp, hc, hpo, hco, hpi, hci⟩

/-- Settles O10: every commit of a port balances its books. -/
theorem oneResponsePerCommand : Obligations.OneResponsePerCommand := by
  intro s t h
  obtain ⟨hp, hc, hpo, hco, hpi, hci⟩ := balanced_of_step h
  exact ⟨hp, hc, hpo, hco, hpi, hci⟩

end Sys2Proof.Machine
end

section
/-! SUPPORT. Where the ring registers and the storage agree, no command faults (spec/20_memory.md R22,
spec/60_exceptions.md R283, spec/70_reset_and_hazards.md R310). -/

namespace Sys2Proof.Machine

/-! ### Transfers stay inside the bytes in use -/

/-- The occupied elements are whole elements of the occupied bytes. -/
theorem length_mul_es_le_occ (r : RbRegs) : r.length * r.es.toNat ≤ r.occ := Nat.div_mul_le_self _ _

/-- A count of elements the buffer has free is a run of bytes no longer than the buffer. -/
theorem count_mul_es_le_of_free {r : RbRegs} {count : Nat} (h : count ≤ r.free) :
    count * r.es.toNat ≤ r.bytesInUse :=
  Nat.mul_le_mul_right _ (h.trans (Nat.sub_le _ _))

/-- The element after an aligned index below N ends at N or before. -/
theorem index_add_es_le {r : RbRegs} {idx : Word} (below : idx.toNat < r.bytesInUse)
    (aligned : r.es.toNat ∣ idx.toNat) : idx.toNat + r.es.toNat ≤ r.bytesInUse := by
  obtain ⟨k, hk⟩ := aligned
  rw [RbRegs.bytesInUse, Nat.mul_comm, hk] at below ⊢
  calc r.es.toNat * k + r.es.toNat = r.es.toNat * (k + 1) := (Nat.mul_succ _ _).symm
    _ ≤ r.es.toNat * r.cap.toNat := Nat.mul_le_mul_left _ (Nat.lt_of_mul_lt_mul_left below)

/-- A buffer that was never initialized holds nothing. -/
theorem length_of_not_init {p : Params} {r : RbRegs} {m : Memory} (hi : RbInv p r m) (init : r.init = false) :
    r.length = 0 := by
  obtain ⟨-, -, -, -, hes⟩ := hi.beforeInit init
  simp [RbRegs.length, hes]

section Ring
variable {s : State} (hi : RbInv s.params s.rb s.mem)
include hi

/-- A count of elements the buffer holds is a run of bytes no longer than the buffer. -/
theorem count_mul_es_le_of_length {count : Nat} (init : s.rb.init = true) (h : count ≤ s.rb.length) :
    count * s.rb.es.toNat ≤ s.rb.bytesInUse :=
  calc count * s.rb.es.toNat ≤ s.rb.length * s.rb.es.toNat := Nat.mul_le_mul_right _ h
    _ ≤ s.rb.occ := length_mul_es_le_occ s.rb
    _ ≤ s.rb.bytesInUse := occ_le s.rb (hi.wrBelow init) (hi.rdBelow init)

/-- Consuming up to N bytes of an initialized buffer answers. -/
theorem consume_in_ring_total {n : Nat} (init : s.rb.init = true) (hn : n ≤ s.rb.bytesInUse) :
    ∃ o, consume s n = .ok o := by
  obtain ⟨out, hout⟩ := copyOut_total hi init hn
  exact ⟨_, consume_total hout⟩

/-- The oldest element of an initialized buffer can be read where it stands, without wrapping (R145). -/
theorem memRead_element_total (init : s.rb.init = true) :
    ∃ out, memRead s s.rb.rdIdx.toNat s.rb.es.toNat = .ok out := by
  have hend := index_add_es_le (hi.rdBelow init) (hi.rdAligned init)
  have hfits := hi.fits init
  exact memRead_total (.inr (by omega)) fun k hk => hi.written init _ (by omega)

/-! ### The commands that move bytes -/

theorem execRbPush_next (count : Word) (payload : List Byte) : ∃ t, execRbPush count payload s = .next t := by
  unfold execRbPush
  split_ifs with hinit _ hlen hfree
  · exact ⟨_, rfl⟩
  · exact ⟨_, rfl⟩
  · exact ⟨_, rfl⟩
  · exact ⟨_, rfl⟩
  · have init : s.rb.init = true := by simpa using hinit
    have hbytes : payload.length ≤ s.rb.bytesInUse :=
      not_not.mp hlen ▸ count_mul_es_le_of_free (Nat.le_of_not_lt hfree)
    obtain ⟨s', hs⟩ := copyIn_total (hi.wrBelow init) (hi.fits init) hbytes
    simp only [hs]
    exact ⟨_, rfl⟩

theorem execRbPoll_next (count : Word) : ∃ t, execRbPoll count s = .next t := by
  unfold execRbPoll
  split_ifs with hinit _ _ hlen
  · exact ⟨_, rfl⟩
  · exact ⟨_, rfl⟩
  · exact ⟨_, rfl⟩
  · exact ⟨_, rfl⟩
  · have init : s.rb.init = true := by simpa using hinit
    obtain ⟨o, ho⟩ := consume_in_ring_total hi init (count_mul_es_le_of_length hi init (Nat.le_of_not_lt hlen))
    simp only [ho]
    exact ⟨_, rfl⟩

theorem execRbPeek_next : ∃ t, execRbPeek s = .next t := by
  unfold execRbPeek
  split_ifs with hinit _
  · exact ⟨_, rfl⟩
  · exact ⟨_, rfl⟩
  · obtain ⟨out, hout⟩ := memRead_element_total hi (by simpa using hinit)
    simp only [hout]
    exact ⟨_, rfl⟩

/-- An iteration that finds a frame's length of elements finds an initialized buffer at least that many bytes long. -/
theorem frame_fits (h : Config.frameLen ≤ s.rb.length) : s.rb.init = true ∧ Config.frameLen ≤ s.rb.bytesInUse := by
  have init : s.rb.init = true := by
    by_contra hinit
    have := length_of_not_init hi (by simpa using hinit)
    simp only [Config.frameLen] at h
    omega
  refine ⟨init, ?_⟩
  calc Config.frameLen ≤ Config.frameLen * s.rb.es.toNat := Nat.le_mul_of_pos_right _ (hi.esLegal init)
    _ ≤ s.rb.bytesInUse := count_mul_es_le_of_length hi init h

theorem decIter_total : ∃ o, decIter s = .ok o := by
  unfold decIter
  split
  · exact ⟨_, rfl⟩
  · next hlen =>
    obtain ⟨init, hframe⟩ := frame_fits hi (Nat.le_of_not_lt hlen)
    have hrd := hi.rdBelow init
    have hfits := hi.fits init
    obtain ⟨b, hb⟩ := memRead_total (s := s) (off := s.rb.rdIdx.toNat) (n := 1) (.inr (by omega)) fun k hk =>
      hi.written init _ (by omega)
    obtain ⟨o1, h1⟩ := consume_in_ring_total hi init (n := 1) (by omega)
    obtain ⟨o2, h2⟩ := consume_in_ring_total hi init hframe
    simp only [hb, h1, h2]
    split_ifs
    · exact ⟨_, rfl⟩
    · exact ⟨_, rfl⟩
    · exact ⟨_, rfl⟩

theorem tickStep_next (c : TickCounts) : ∃ t, tickStep c s = .next t := by
  obtain ⟨⟨r, u⟩, ho⟩ := decIter_total hi
  cases r <;> simp [tickStep, ho]

theorem execDecTick_next : ∃ t, execDecTick s = .next t := by
  unfold execDecTick
  split_ifs
  · exact ⟨_, rfl⟩
  · exact ⟨_, rfl⟩
  · exact tickStep_next hi _

/-! ### No commit stops the machine -/

/-- Every command answers a next state; the twelve that are not the transfers above do so in every state. -/
theorem exec_next (i : Instr) : ∃ t, exec i s = .next t := by
  cases i with
  | rbPush count payload => exact execRbPush_next hi count payload
  | rbPoll count => exact execRbPoll_next hi count
  | rbPeek => exact execRbPeek_next hi
  | decTick => exact execDecTick_next hi
  | rbInit es cap => exact (execRbInit_answers es cap s).next
  | rbReset => exact (execRbReset_answers s).next
  | rbLength => exact (execRbLength_answers s).next
  | ckSum seed len payload => exact (execCkSum_answers seed len payload s).next
  | ckValid seed len expected payload => exact (execCkValid_answers seed len expected payload s).next
  | regRd reg => exact (execRegRd_answers reg s).next
  | regWr reg val => exact (execRegWr_answers reg val s).next
  | errSet code => exact ⟨_, rfl⟩
  | errClear => exact ⟨_, rfl⟩
  | rflQuery => exact ⟨_, rfl⟩
  | prcAdvance => exact ⟨_, rfl⟩
  | prcReset => exact ⟨_, rfl⟩

theorem runTxn_next (p : Port) (x : Txn) : ∃ t, runTxn p x s = .next t := by
  unfold runTxn
  split
  · exact ⟨_, rfl⟩
  · exact exec_next hi _

theorem servePort_next (p : Port) : ∃ t, servePort p s = .next t := by
  cases p with
  | producer =>
    cases hin : s.prodIn with
    | nil => exact ⟨s, by simp only [servePort, hin]⟩
    | cons x xs => exact serve_producer hin ▸ runTxn_next (s := { s with prodIn := xs }) hi .producer x
  | command =>
    cases htick : s.tick with
    | some c => exact serve_tick htick ▸ tickStep_next hi c
    | none =>
      cases hin : s.cmdIn with
      | nil => exact ⟨s, by simp only [servePort, htick, hin]⟩
      | cons x xs => exact serve_command htick hin ▸ runTxn_next (s := { s with cmdIn := xs }) hi .command x

end Ring

/-- Settles O13: the ring part of the invariant keeps every transfer inside the written bytes of the storage. -/
theorem stepNeverStops : Obligations.StepNeverStops := by
  intro s hinv
  rcases step_cases s with ⟨-, hs⟩ | ⟨p, -, hs⟩
  · exact ⟨s, hs⟩
  · have hring : RbInv (afterPick s).params (afterPick s).rb (afterPick s).mem := by simpa using hinv.ring
    obtain ⟨t, ht⟩ := servePort_next hring p
    exact ⟨t, hs.trans ht⟩

end Sys2Proof.Machine
end

section
/-! SUPPORT. What one step does, said once for the proofs about every step: the transaction a port takes, what each
command writes before its port answers, and that a commit of a tick is one iteration (spec/10_state.md R31 to R37,
spec/30_encoding.md R100, spec/42_decoder.md R205, R213). -/

namespace Sys2Proof.Machine

/-! ### The transaction a port takes -/

/-- Port `p` takes its oldest transaction `x`, which leaves the state `u`. A command port that works on a tick takes
none. -/
inductive Takes (s : State) : Port → Txn → State → Prop where
  | producer {x : Txn} {xs : List Txn} (waits : s.prodIn = x :: xs) : Takes s .producer x { s with prodIn := xs }
  | command {x : Txn} {xs : List Txn} (idle : s.tick = none) (waits : s.cmdIn = x :: xs) :
      Takes s .command x { s with cmdIn := xs }

/-- The commit of a picked port is the step. -/
theorem step_of_pick {s : State} {p : Port} (h : pick s = some p) : step s = servePort p (afterPick s) := by
  simp [step, serve, h]

/-- A port that takes a transaction runs it. -/
theorem servePort_of_takes {s u : State} {p : Port} {x : Txn} (h : Takes s p x u) :
    servePort p s = runTxn p x u := by
  cases h with
  | producer waits => exact serve_producer waits
  | command idle waits => exact serve_command idle waits

/-- A transaction that decodes runs as its instruction. -/
theorem runTxn_of_decode {p : Port} {x : Txn} {i : Instr} (h : decode p x.word x.payload = .ok i) (s : State) :
    runTxn p x s = exec i s := by
  simp [runTxn, h]

/-- What one commit of a port can do. -/
theorem servePort_cases {p : Port} {s t : State} (h : servePort p s = .next t) :
    t = s ∨ (∃ c, s.tick = some c ∧ tickStep c s = .next t) ∨ ∃ x u, Takes s p x u ∧ runTxn p x u = .next t := by
  cases p with
  | producer =>
    cases hin : s.prodIn with
    | nil => simp only [servePort, hin] at h; cases h; exact .inl rfl
    | cons x xs => exact .inr (.inr ⟨x, _, .producer hin, serve_producer hin ▸ h⟩)
  | command =>
    cases htick : s.tick with
    | some c => exact .inr (.inl ⟨c, rfl, serve_tick htick ▸ h⟩)
    | none =>
      cases hin : s.cmdIn with
      | nil => simp only [servePort, htick, hin] at h; cases h; exact .inl rfl
      | cons x xs => exact .inr (.inr ⟨x, _, .command htick hin, serve_command htick hin ▸ h⟩)

/-- What running a transaction can do: the port refuses it, or it is an instruction of the port. -/
theorem runTxn_cases {p : Port} {x : Txn} {s t : State} (h : runTxn p x s = .next t) :
    (∃ st v, t = respond p st v [] s) ∨ ∃ i, decode p x.word x.payload = .ok i ∧ exec i s = .next t := by
  unfold runTxn at h
  split at h
  · next e _ =>
    cases h
    cases e with
    | unknownOpcode => exact .inl ⟨_, _, rfl⟩
    | reservedBits => exact .inl ⟨_, _, rfl⟩
    | wrongPort => exact .inl ⟨_, _, rfl⟩
    | strayPayload i =>
      simp only [reject]
      split
      · exact .inl ⟨_, _, rfl⟩
      · exact .inl ⟨_, _, rfl⟩
  · next i hd => exact .inr ⟨i, hd, h⟩

/-! ### What each command writes -/

/-- `t` differs from `u` in the responses given at most. -/
def Answered (u t : State) : Prop := ∃ cmdOut prodOut, t = { u with cmdOut := cmdOut, prodOut := prodOut }

theorem Answered.refl (u : State) : Answered u u := ⟨u.cmdOut, u.prodOut, rfl⟩

theorem answered_respond (p : Port) (st : Status) (v : Word) (d : List Byte) (u : State) :
    Answered u (respond p st v d u) := by
  cases p
  · exact ⟨u.cmdOut, _, rfl⟩
  · exact ⟨_, u.prodOut, rfl⟩

/-- What a command writes before its port answers, with the checks it has passed: `Effect s i u` says
that `i` takes `s` to `u`. -/
inductive Effect (s : State) : Instr → State → Prop where
  /-- A command that fails or only reads writes nothing. -/
  | nothing (i : Instr) : Effect s i s
  | rbInit {es : BitVec 16} {cap : Word} {u : State} (esLegal : es ≠ 0) (capLegal : 2 ≤ cap.toNat)
      (fits : cap.toNat * es.toNat ≤ s.params.rbMaxBytes)
      (clears : memWrite s 0 (List.replicate (cap.toNat * es.toNat) 0) = .ok u) :
      Effect s (.rbInit es cap) { u with rb := ⟨0, 0, false, true, cap, es⟩ }
  | rbReset (init : s.rb.init = true) :
      Effect s .rbReset { s with rb := { s.rb with wrIdx := 0, rdIdx := 0, full := false } }
  | rbPush {count : Word} {payload : List Byte} {u : State} (init : s.rb.init = true) (nonzero : count ≠ 0)
      (whole : payload.length = count.toNat * s.rb.es.toNat) (free : count.toNat ≤ s.rb.free)
      (stores : copyIn s payload = .ok u) :
      Effect s (.rbPush count payload)
        { u with
          rb := { u.rb with
            wrIdx := s.rb.advance s.rb.wrIdx payload.length
            full := if s.rb.advance s.rb.wrIdx payload.length = s.rb.rdIdx then true else s.rb.full } }
  | rbPoll {count : Word} {out : List Byte} {u : State} (init : s.rb.init = true) (nonzero : count ≠ 0)
      (held : count.toNat ≤ s.rb.length) (takes : consume s (count.toNat * s.rb.es.toNat) = .ok (out, u)) :
      Effect s (.rbPoll count) u
  | decTick {r : IterOutcome} {u : State} (init : s.rb.init = true) (bytes : s.rb.es = 1)
      (iter : decIter s = .ok (r, u)) (tick : Option TickCounts) : Effect s .decTick { u with tick := tick }
  | regWr {reg : BitVec 16} {val : Word} {r : RegName} (known : regOfNum reg = some r)
      (accepts : regAccepts r val = true) : Effect s (.regWr reg val) { s with cfg := writeReg r val s.cfg }
  | errSet (code : Byte) : Effect s (.errSet code) { s with dec := setError code s.dec }
  | errClear : Effect s .errClear { s with dec := { s.dec with errLatch := 0 } }
  | rflQuery : Effect s .rflQuery { s with dec := { s.dec with rflTimer := rflStep s.params s.dec.rflTimer } }
  | prcAdvance : Effect s .prcAdvance { s with prc := if s.prc.toNat < 2 then s.prc + 1 else s.prc }
  | prcReset : Effect s .prcReset { s with prc := 0 }

/-- The result, if it is a next state, is the effect of `i` and an answer to it. -/
def HasEffect (s : State) (i : Instr) (r : Result) : Prop :=
  ∀ t, r = .next t → ∃ u, Effect s i u ∧ Answered u t

theorem hasEffect_respond {s u : State} {i : Instr} {p : Port} {st : Status} {v : Word} {d : List Byte}
    (h : Effect s i u) : HasEffect s i (.next (respond p st v d u)) := by
  rintro t ⟨⟩
  exact ⟨u, h, answered_respond ..⟩

theorem hasEffect_fail {s : State} {i : Instr} {p : Port} {st : Status} : HasEffect s i (.next (fail p st s)) :=
  hasEffect_respond (.nothing i)

theorem hasEffect_fault {s : State} {i : Instr} {e : Fault} : HasEffect s i (.fault e) := by
  rintro t ⟨⟩

theorem execRbInit_effect (es : BitVec 16) (cap : Word) (s : State) :
    HasEffect s (.rbInit es cap) (execRbInit es cap s) := by
  unfold execRbInit
  split_ifs with hlegal hfits
  · exact hasEffect_fail
  · exact hasEffect_fail
  · obtain ⟨hes, hcap⟩ := not_or.mp hlegal
    cases h : memWrite s 0 (List.replicate (cap.toNat * es.toNat) 0) with
    | error e => exact hasEffect_fault
    | ok u => exact hasEffect_respond (.rbInit hes (Nat.le_of_not_lt hcap) (Nat.le_of_not_lt hfits) h)

theorem execRbReset_effect (s : State) : HasEffect s .rbReset (execRbReset s) := by
  unfold execRbReset
  split_ifs with hinit
  · exact hasEffect_fail
  · exact hasEffect_respond (.rbReset (by simpa using hinit))

theorem execRbPush_effect (count : Word) (payload : List Byte) (s : State) :
    HasEffect s (.rbPush count payload) (execRbPush count payload s) := by
  unfold execRbPush
  split_ifs with hinit hcount hlen hfree
  · exact hasEffect_fail
  · exact hasEffect_fail
  · exact hasEffect_fail
  · exact hasEffect_fail
  · cases h : copyIn s payload with
    | error e => exact hasEffect_fault
    | ok u =>
      exact hasEffect_respond
        (.rbPush (by simpa using hinit) hcount (not_not.mp hlen) (Nat.le_of_not_lt hfree) h)

theorem execRbPoll_effect (count : Word) (s : State) : HasEffect s (.rbPoll count) (execRbPoll count s) := by
  unfold execRbPoll
  split_ifs with hinit hcount _ hlen
  · exact hasEffect_fail
  · exact hasEffect_fail
  · exact hasEffect_fail
  · exact hasEffect_fail
  · cases h : consume s (count.toNat * s.rb.es.toNat) with
    | error e => exact hasEffect_fault
    | ok o => exact hasEffect_respond (.rbPoll (by simpa using hinit) hcount (Nat.le_of_not_lt hlen) h)

theorem execRbPeek_effect (s : State) : HasEffect s .rbPeek (execRbPeek s) := by
  unfold execRbPeek
  split_ifs
  · exact hasEffect_fail
  · exact hasEffect_fail
  · cases memRead s s.rb.rdIdx.toNat s.rb.es.toNat with
    | error e => exact hasEffect_fault
    | ok out => exact hasEffect_respond (.nothing _)

theorem execRbLength_effect (s : State) : HasEffect s .rbLength (execRbLength s) := by
  unfold execRbLength
  split_ifs
  · exact hasEffect_respond (.nothing _)
  · exact hasEffect_respond (.nothing _)

theorem execCkSum_effect (seed len : BitVec 16) (payload : List Byte) (s : State) :
    HasEffect s (.ckSum seed len payload) (execCkSum seed len payload s) := by
  unfold execCkSum
  split_ifs
  · exact hasEffect_fail
  · exact hasEffect_respond (.nothing _)

theorem execCkValid_effect (seed len expected : BitVec 16) (payload : List Byte) (s : State) :
    HasEffect s (.ckValid seed len expected payload) (execCkValid seed len expected payload s) := by
  unfold execCkValid
  split
  · exact hasEffect_fail
  · exact hasEffect_respond (.nothing _)

/-- One commit of a tick is an iteration, after which the tick ends with its answer or goes on. -/
theorem tickStep_answered {c : TickCounts} {s t : State} (h : tickStep c s = .next t) :
    ∃ r u tick, decIter s = .ok (r, u) ∧ Answered { u with tick := tick } t := by
  obtain ⟨u, hd, rfl⟩ | ⟨r, u, -, hd, rfl⟩ := tickStep_cases h
  · exact ⟨_, u, none, hd, answered_respond ..⟩
  · exact ⟨r, u, _, hd, .refl _⟩

theorem execDecTick_effect (s : State) : HasEffect s .decTick (execDecTick s) := by
  unfold execDecTick
  split_ifs with hinit hes
  · exact hasEffect_fail
  · exact hasEffect_fail
  · intro t h
    obtain ⟨r, u, tick, hd, ha⟩ := tickStep_answered h
    exact ⟨_, .decTick (by simpa using hinit) (not_not.mp hes) hd tick, ha⟩

theorem execRegRd_effect (reg : BitVec 16) (s : State) : HasEffect s (.regRd reg) (execRegRd reg s) := by
  unfold execRegRd
  split
  · exact hasEffect_fail
  · exact hasEffect_respond (.nothing _)

theorem execRegWr_effect (reg : BitVec 16) (val : Word) (s : State) :
    HasEffect s (.regWr reg val) (execRegWr reg val s) := by
  unfold execRegWr
  split
  · exact hasEffect_fail
  · next r known =>
    split
    · exact hasEffect_fail
    · next accepts => exact hasEffect_respond (.regWr known (by simpa using accepts))

/-- Every command has its effect. -/
theorem exec_hasEffect (i : Instr) (s : State) : HasEffect s i (exec i s) := by
  cases i with
  | rbInit es cap => exact execRbInit_effect es cap s
  | rbReset => exact execRbReset_effect s
  | rbPush count payload => exact execRbPush_effect count payload s
  | rbPoll count => exact execRbPoll_effect count s
  | rbPeek => exact execRbPeek_effect s
  | rbLength => exact execRbLength_effect s
  | ckSum seed len payload => exact execCkSum_effect seed len payload s
  | ckValid seed len expected payload => exact execCkValid_effect seed len expected payload s
  | decTick => exact execDecTick_effect s
  | regRd reg => exact execRegRd_effect reg s
  | regWr reg val => exact execRegWr_effect reg val s
  | errSet code => exact hasEffect_respond (.errSet code)
  | errClear => exact hasEffect_respond .errClear
  | rflQuery => exact hasEffect_respond .rflQuery
  | prcAdvance => exact hasEffect_respond .prcAdvance
  | prcReset => exact hasEffect_respond .prcReset

/-- What a command that answers a next state has done. -/
theorem exec_effect {i : Instr} {s t : State} (h : exec i s = .next t) : ∃ u, Effect s i u ∧ Answered u t :=
  exec_hasEffect i s t h

end Sys2Proof.Machine
end

section
/-! SUPPORT. The step and the instruction the oldest transaction decodes to (spec/10_state.md R31,
spec/30_encoding.md R100, spec/42_decoder.md R213). -/

namespace Sys2Proof.Machine

/-- Settles O7: the picked port takes its oldest transaction, and a transaction that decodes runs as its
instruction. -/
theorem stepRunsTheDecodedInstruction : Obligations.StepRunsTheDecodedInstruction := by
  intro s x xs i
  constructor
  · intro hpick idle waits hd
    have htakes : Takes (afterPick s) .command x { afterPick s with cmdIn := xs } :=
      .command (by simpa using idle) (by simpa using waits)
    rw [step_of_pick hpick, servePort_of_takes htakes, runTxn_of_decode hd]
  · intro hpick waits hd
    have htakes : Takes (afterPick s) .producer x { afterPick s with prodIn := xs } :=
      .producer (by simpa using waits)
    rw [step_of_pick hpick, servePort_of_takes htakes, runTxn_of_decode hd]

/-- Settles O8: a command port with a tick serves the tick, and where no port is ready none is picked. -/
theorem stepWithoutANewCommand : Obligations.StepWithoutANewCommand := by
  constructor
  · intro s c hpick htick
    rw [step_of_pick hpick, serve_tick (by simpa using htick)]
  · intro s htick hcmd hprod
    have hpick : pick s = none := (pick_none_iff s).mpr ⟨by simp [prodReady, hprod], by simp [cmdReady, htick, hcmd]⟩
    rcases step_cases s with ⟨-, hs⟩ | ⟨p, hp, -⟩
    · exact hs
    · rw [hpick] at hp; cases hp

end Sys2Proof.Machine
end

section
/-! SUPPORT. Which commands write which state, and the error latch along a step (spec/10_state.md R32 to R37, R46,
spec/42_decoder.md R205 to R207). -/

namespace Sys2Proof.Machine

/-! ### Only named commands write -/

/-- The frame of an iteration: it writes the read index, the full flag, which it can only clear, and the telemetry
registers. -/
theorem decIter_frame {s u : State} {r : IterOutcome} (h : decIter s = .ok (r, u)) :
    u = { s with rb := { s.rb with rdIdx := u.rb.rdIdx, full := u.rb.full }, dec := u.dec } ∧
      (u.rb.full = true → s.rb.full = true) := by
  obtain ⟨-, rfl, -⟩ | ⟨-, -, out, hc⟩ | ⟨-, f, s', hc, ⟨-, -, rfl⟩ | ⟨-, -, rfl⟩⟩ := decIter_cases h
  · exact ⟨rfl, id⟩
  all_goals
    obtain ⟨-, rfl⟩ := consume_ok hc
    exact ⟨rfl, nofun⟩

/-- CopyIn writes MEM alone. -/
theorem copyIn_frame {s u : State} {bs : List Byte} (h : copyIn s bs = .ok u) : u = { s with mem := u.mem } := by
  unfold copyIn at h
  simp only at h
  split at h
  · cases h
  · next s' h1 =>
    obtain ⟨-, rfl⟩ := memWrite_ok h1
    obtain ⟨-, rfl⟩ := memWrite_ok h
    rfl

/-- Raising an error writes the latch alone. -/
theorem setError_frame (code : Byte) (d : DecRegs) :
    setError code d = { d with errLatch := (setError code d).errLatch } := by
  unfold setError
  split <;> rfl

/-- Settles O26, effect by effect: each clause speaks of a field the effect leaves alone or names the command. -/
theorem onlyNamedCommandsWriteState : Obligations.OnlyNamedCommandsWriteState := by
  intro i s t h
  obtain ⟨u, he, cmdOut, prodOut, rfl⟩ := exec_effect h
  cases he with
  | nothing => simp +contextual
  | rbInit _ _ _ clears =>
    obtain ⟨-, rfl⟩ := memWrite_ok clears
    simp
  | rbReset => simp
  | rbPush _ _ _ _ stores =>
    rw [copyIn_frame stores]
    simp +contextual
  | rbPoll _ _ _ takes =>
    obtain ⟨-, rfl⟩ := consume_ok takes
    simp
  | decTick _ _ iter tick =>
    obtain ⟨hu, hfull⟩ := decIter_frame iter
    rw [hu]
    simpa +contextual using hfull
  | regWr => simp +contextual
  | errSet code =>
    rw [setError_frame]
    simp +contextual
  | errClear => simp +contextual
  | rflQuery => simp +contextual
  | prcAdvance => simp +contextual
  | prcReset => simp +contextual

/-! ### A latched error -/

section Dec
variable (noiseTh : BitVec 15) (e : Byte) (data : Word) (d : DecRegs)

@[simp] theorem stallUpdate_errLatch : (stallUpdate noiseTh d).errLatch = d.errLatch := by
  unfold stallUpdate; split <;> rfl
@[simp] theorem stallUpdate_velocity : (stallUpdate noiseTh d).velocity = d.velocity := by
  unfold stallUpdate; split <;> rfl
@[simp] theorem stallUpdate_tlmPosition : (stallUpdate noiseTh d).tlmPosition = d.tlmPosition := by
  unfold stallUpdate; split <;> rfl
@[simp] theorem stallUpdate_prevPosition : (stallUpdate noiseTh d).prevPosition = d.prevPosition := by
  unfold stallUpdate; split <;> rfl
@[simp] theorem echoDispatch_errLatch : (echoDispatch e data d).errLatch = d.errLatch := by
  unfold echoDispatch; split <;> rfl

end Dec

/-- A valid frame raises its error code, and a latched error stays (R206, R207). -/
theorem applyFrame_errLatch (noiseTh : BitVec 15) (f : List Byte) (d : DecRegs) :
    (applyFrame noiseTh f d).errLatch = if d.errLatch = 0 then frameByte f 8 else d.errLatch := by
  simp [applyFrame, velocityUpdate, storeSeq, setError_errLatch, storeFields]

theorem decIter_keeps_latched {s u : State} {r : IterOutcome} (h : decIter s = .ok (r, u))
    (latched : s.dec.errLatch ≠ 0) : u.dec.errLatch = s.dec.errLatch := by
  obtain ⟨-, rfl, -⟩ | ⟨-, -, out, hc⟩ | ⟨-, f, s', hc, ⟨-, -, rfl⟩ | ⟨-, -, rfl⟩⟩ := decIter_cases h
  · rfl
  · obtain ⟨-, rfl⟩ := consume_ok hc
    rfl
  · obtain ⟨-, rfl⟩ := consume_ok hc
    rfl
  · obtain ⟨-, rfl⟩ := consume_ok hc
    rw [applyFrame_errLatch, if_neg latched]

/-- A command keeps a latched error, or is ERR_CLEAR. -/
theorem exec_keeps_latched {i : Instr} {s t : State} (h : exec i s = .next t) (latched : s.dec.errLatch ≠ 0) :
    t.dec.errLatch = s.dec.errLatch ∨ (i = .errClear ∧ t.dec.errLatch = 0) := by
  by_cases hsame : t.dec.errLatch = s.dec.errLatch
  · exact .inl hsame
  · obtain ⟨-, -, -, -, -, -, -, hwriter, -⟩ := onlyNamedCommandsWriteState i s t h
    rcases hwriter hsame with rfl | ⟨code, rfl⟩ | rfl
    · obtain ⟨u, he, cmdOut, prodOut, rfl⟩ := exec_effect h
      cases he with
      | nothing => exact .inl rfl
      | decTick _ _ iter =>
        have hiter := decIter_keeps_latched iter latched
        exact .inl hiter
    · cases h
      exact .inl ((setError_errLatch code s.dec).trans (if_neg latched))
    · cases h
      exact .inr ⟨rfl, rfl⟩

/-- A word that decodes matches the row of its instruction in R106. -/
theorem matches_of_decode {p : Port} {w : CmdWord} {payload : List Byte} {i : Instr}
    (h : decode p w payload = .ok i) : w &&& i.opcode.mask = i.opcode.matchWord := by
  unfold decode at h
  split at h
  · cases h
  · split_ifs at h with hbits
    cases h
    rw [operands_opcode, not_not.mp hbits]

/-- The one word of ERR_CLEAR: every bit of its row in R106 is fixed. -/
theorem word_of_decode_errClear {p : Port} {w : CmdWord} {payload : List Byte}
    (h : decode p w payload = .ok .errClear) : w = 0x4300000000000000 :=
  calc w = w &&& Opcode.errClear.mask := (BitVec.and_allOnes (x := w)).symm
    _ = 0x4300000000000000 := matches_of_decode h

/-- Settles O48: a refused transaction, an iteration and every command but ERR_CLEAR keep a latched error. -/
theorem latchedErrorStaysUntilCleared : Obligations.LatchedErrorStaysUntilCleared := by
  intro s t h latched
  have hlatch : (afterPick s).dec.errLatch = s.dec.errLatch := by rw [afterPick_dec]
  rcases step_cases s with ⟨-, hs⟩ | ⟨p, hpick, hs⟩
  · cases hs.symm.trans h
    exact .inl rfl
  · rcases servePort_cases (hs.symm.trans h) with rfl | ⟨c, -, htick⟩ | ⟨x, u, htakes, hrun⟩
    · exact .inl hlatch
    · obtain ⟨r, v, tick, hiter, cmdOut, prodOut, rfl⟩ := tickStep_answered htick
      exact .inl ((decIter_keeps_latched hiter (hlatch ▸ latched)).trans hlatch)
    · have hu : u.dec.errLatch = s.dec.errLatch := by cases htakes <;> exact hlatch
      rcases runTxn_cases hrun with ⟨st, v, rfl⟩ | ⟨i, hd, hexec⟩
      · exact .inl (by rw [respond_dec, hu])
      · rcases exec_keeps_latched hexec (hu ▸ latched) with ht | ⟨rfl, ht⟩
        · exact .inl (ht.trans hu)
        · have hport : p = .command := (port_of_decode hd).symm
          subst hport
          cases htakes with
          | command _ waits =>
            exact .inr ⟨ht, hpick, x.payload, _, by rw [← word_of_decode_errClear hd, ← waits, afterPick_cmdIn]⟩

end Sys2Proof.Machine
end

section
/-! SUPPORT. The two parts of the invariant that arithmetic keeps: the ring registers with the written bytes, and the
velocity (spec/10_state.md R32 to R38, spec/42_decoder.md R209). -/

namespace Sys2Proof.Machine

/-! ### The ring part -/

section RingRegs
variable {p : Params} {r : RbRegs} {m : Memory} (hi : RbInv p r m) (init : r.init = true)
include hi init

theorem bytesInUse_pos : 0 < r.bytesInUse := Nat.zero_lt_of_lt (hi.wrBelow init)

/-- An index moved by `n` in legal storage is the sum modulo N. -/
theorem advance_toNat_of_ring (legal : p.wf) (idx : Word) (n : Nat) :
    (r.advance idx n).toNat = (idx.toNat + n) % r.bytesInUse :=
  advance_toNat r idx n (bytesInUse_pos hi init) (by have := hi.fits init; omega)

theorem advance_below (legal : p.wf) (idx : Word) (n : Nat) : (r.advance idx n).toNat < r.bytesInUse := by
  rw [advance_toNat_of_ring hi init legal]
  exact Nat.mod_lt _ (bytesInUse_pos hi init)

/-- An aligned index moved by whole elements stays aligned: N itself is a whole number of elements. -/
theorem advance_aligned (legal : p.wf) {idx : Word} {n : Nat} (aligned : r.es.toNat ∣ idx.toNat)
    (whole : r.es.toNat ∣ n) : r.es.toNat ∣ (r.advance idx n).toNat := by
  rw [advance_toNat_of_ring hi init legal]
  exact (Nat.dvd_mod_iff (Nat.dvd_mul_left _ _)).mpr (aligned.add whole)

theorem length_of_full (full : r.full = true) : r.length = r.cap.toNat := by
  simp [RbRegs.length, RbRegs.occ, full, RbRegs.bytesInUse, Nat.mul_div_cancel _ (hi.esLegal init)]

theorem length_lt_of_not_full (full : r.full = false) : r.length < r.cap.toNat := by
  have hocc : r.occ < r.bytesInUse := by
    have hw := hi.wrBelow init
    have hr := hi.rdBelow init
    rw [occ_cases r hw hr, full, if_neg Bool.false_ne_true]
    split <;> omega
  exact Nat.div_lt_of_lt_mul (by rwa [Nat.mul_comm])

/-- A full buffer has no free element. -/
theorem free_of_full (full : r.full = true) : r.free = 0 := by
  rw [RbRegs.free, length_of_full hi init full, Nat.sub_self]

/-- Consuming whole elements. -/
theorem rbInv_consume (legal : p.wf) {n : Nat} (whole : r.es.toNat ∣ n) :
    RbInv p { r with full := false, rdIdx := r.advance r.rdIdx n } m :=
  { hi with
    beforeInit := fun h => by cases init.symm.trans h
    rdBelow := fun _ => advance_below hi init legal _ _
    rdAligned := fun _ => advance_aligned hi init legal (hi.rdAligned init) whole
    fullMeets := nofun }

/-- Pushing whole elements into free space, so that every byte in use still has a value. -/
theorem rbInv_push (legal : p.wf) {m' : Memory} {count n : Nat} (nonzero : 0 < count) (free : count ≤ r.free)
    (whole : r.es.toNat ∣ n) (written : ∀ a < r.bytesInUse, (m'.read a).isSome) :
    RbInv p
      { r with
        wrIdx := r.advance r.wrIdx n, full := if r.advance r.wrIdx n = r.rdIdx then true else r.full } m' :=
  { hi with
    beforeInit := fun h => by cases init.symm.trans h
    wrBelow := fun _ => advance_below hi init legal _ _
    wrAligned := fun _ => advance_aligned hi init legal (hi.wrAligned init) whole
    fullMeets := by
      intro hfull
      by_contra hne
      have := free_of_full hi init ((if_neg hne).symm.trans hfull)
      omega
    written := fun _ => written }

/-- Emptying the buffer. -/
theorem rbInv_reset : RbInv p { r with wrIdx := 0, rdIdx := 0, full := false } m :=
  have hpos := bytesInUse_pos hi init
  { hi with
    beforeInit := fun h => by cases init.symm.trans h
    wrBelow := fun _ => hpos
    rdBelow := fun _ => hpos
    wrAligned := fun _ => Nat.dvd_zero _
    rdAligned := fun _ => Nat.dvd_zero _
    fullMeets := nofun }

end RingRegs

/-- A fresh buffer of legal geometry whose bytes in use all have values. -/
theorem rbInv_fresh {p : Params} {m : Memory} {es : BitVec 16} {cap : Word} (hes : es ≠ 0) (hcap : 2 ≤ cap.toNat)
    (fits : cap.toNat * es.toNat ≤ p.rbMaxBytes) (written : ∀ a < cap.toNat * es.toNat, (m.read a).isSome) :
    RbInv p ⟨0, 0, false, true, cap, es⟩ m := by
  have hes : 1 ≤ es.toNat := by bv_omega
  have hpos : 0 < cap.toNat * es.toNat := Nat.mul_pos (by omega) hes
  exact
    { beforeInit := nofun
      capLegal := fun _ => hcap
      esLegal := fun _ => hes
      fits := fun _ => fits
      wrBelow := fun _ => hpos
      rdBelow := fun _ => hpos
      wrAligned := fun _ => Nat.dvd_zero _
      rdAligned := fun _ => Nat.dvd_zero _
      fullMeets := nofun
      written := fun _ => written }

/-- After CopyIn every byte that had a value has one still. -/
theorem copyIn_written {s u : State} {bs : List Byte} (hw : s.rb.wrIdx.toNat < s.rb.bytesInUse)
    (hn : bs.length ≤ s.rb.bytesInUse) (h : copyIn s bs = .ok u) {a : Nat} (written : (s.mem.read a).isSome) :
    (u.mem.read a).isSome := by
  obtain ⟨-, inside, outside⟩ := copyIn_ok hw hn h
  by_cases hrun : ∃ i < bs.length, a = (s.rb.wrIdx.toNat + i) % s.rb.bytesInUse
  · obtain ⟨i, hlt, rfl⟩ := hrun
    simp [inside i hlt, hlt]
  · rw [outside a fun i hlt heq => hrun ⟨i, hlt, heq⟩]
    exact written

/-! ### The velocity -/

/-- The velocity is the difference of the two positions held (R209). -/
def VelocityHeld (d : DecRegs) : Prop :=
  d.velocity.toNat = ((numericPos d.prevPosition).toNat - (numericPos d.tlmPosition).toNat : Int).natAbs

theorem absDiff_toNat (a b : BitVec 15) : (absDiff a b).toNat = (a.toNat - b.toNat : Int).natAbs := by
  rw [absDiff, BitVec.toNat_ofNat]
  exact Nat.mod_eq_of_lt (by omega)

theorem velocityUpdate_velocityHeld (d : DecRegs) : VelocityHeld (velocityUpdate d) := absDiff_toNat _ _

theorem applyFrame_velocityHeld (noiseTh : BitVec 15) (f : List Byte) (d : DecRegs) :
    VelocityHeld (applyFrame noiseTh f d) := by
  simpa [VelocityHeld, applyFrame] using velocityUpdate_velocityHeld _

end Sys2Proof.Machine
end

section
/-! SUPPORT. The invariant holds at power-on and every step keeps it, so it holds in every run (spec/10_state.md R38,
R57, spec/42_decoder.md R209, R214). -/

namespace Sys2Proof.Machine

/-! ### The invariant -/

/-- Using up a turn writes the turn fields alone. -/
theorem afterPick_eq (s : State) :
    ∃ turns freeTurns, afterPick s = { s with turns := turns, freeTurns := freeTurns } := by
  unfold afterPick useTurn
  split
  · split
    · exact ⟨_, _, rfl⟩
    · exact ⟨_, _, rfl⟩
  · exact ⟨_, _, rfl⟩

/-- The invariant does not speak of the responses. -/
theorem Inv.after_answer {u t : State} (h : Inv u) (ha : Answered u t) : Inv t := by
  obtain ⟨cmdOut, prodOut, rfl⟩ := ha
  exact { h with }

theorem Inv.after_pick {s : State} (h : Inv s) : Inv (afterPick s) := by
  obtain ⟨turns, freeTurns, hs⟩ := afterPick_eq s
  rw [hs]
  exact { h with }

theorem Inv.after_take {s u : State} {p : Port} {x : Txn} (h : Inv s) (ht : Takes s p x u) : Inv u := by
  cases ht
  · exact { h with }
  · exact { h with }

theorem inv_powerOn {p : Params} (legal : p.wf) : Inv (State.powerOn p) where
  paramsLegal := legal
  memCanonical := .nil
  memInside := nofun
  ring :=
    { beforeInit := fun _ => ⟨rfl, rfl, rfl, rfl, rfl⟩
      capLegal := nofun
      esLegal := nofun
      fits := nofun
      wrBelow := nofun
      rdBelow := nofun
      wrAligned := nofun
      rdAligned := nofun
      fullMeets := nofun
      written := nofun }
  prcLegal := Nat.zero_le 2
  velocityHeld := by simp [State.powerOn]
  tickOnBytes := nofun

theorem Inv.after_consume {s u : State} {n : Nat} {out : List Byte} (h : Inv s) (init : s.rb.init = true)
    (whole : s.rb.es.toNat ∣ n) (hc : consume s n = .ok (out, u)) : Inv u := by
  obtain ⟨-, rfl⟩ := consume_ok hc
  exact { h with ring := rbInv_consume h.ring init h.paramsLegal whole }

theorem Inv.after_applyFrame {s : State} (h : Inv s) (noiseTh : BitVec 15) (f : List Byte) :
    Inv { s with dec := applyFrame noiseTh f s.dec } :=
  { h with velocityHeld := applyFrame_velocityHeld noiseTh f s.dec }

theorem Inv.after_decIter {s u : State} {r : IterOutcome} (h : Inv s) (init : s.rb.init = true) (bytes : s.rb.es = 1)
    (hd : decIter s = .ok (r, u)) : Inv u := by
  have whole : ∀ n, s.rb.es.toNat ∣ n := by simp [bytes]
  obtain ⟨-, rfl, -⟩ | ⟨-, -, out, hc⟩ | ⟨-, f, s', hc, ⟨-, -, rfl⟩ | ⟨-, -, rfl⟩⟩ := decIter_cases hd
  · exact h
  · exact h.after_consume init (whole _) hc
  · exact h.after_consume init (whole _) hc
  · exact (h.after_consume init (whole _) hc).after_applyFrame ..

theorem Inv.after_iteration {s u : State} {r : IterOutcome} (h : Inv s) (init : s.rb.init = true) (bytes : s.rb.es = 1)
    (hd : decIter s = .ok (r, u)) (tick : Option TickCounts) : Inv { u with tick := tick } := by
  obtain ⟨hu, -⟩ := decIter_frame hd
  exact { h.after_decIter init bytes hd with tickOnBytes := fun _ => by rw [hu]; exact ⟨init, bytes⟩ }

theorem Inv.after_rbInit {s u : State} {es : BitVec 16} {cap : Word} (h : Inv s) (idle : s.tick = none)
    (esLegal : es ≠ 0) (capLegal : 2 ≤ cap.toNat) (fits : cap.toNat * es.toNat ≤ s.params.rbMaxBytes)
    (clears : memWrite s 0 (List.replicate (cap.toNat * es.toNat) 0) = .ok u) :
    Inv { u with rb := ⟨0, 0, false, true, cap, es⟩ } := by
  obtain ⟨hwf, hinside⟩ := memWrite_keeps clears h.memCanonical h.memInside
  obtain ⟨-, rfl⟩ := memWrite_ok clears
  have written : ∀ a < cap.toNat * es.toNat,
      ((s.mem.write 0 (List.replicate (cap.toNat * es.toNat) 0)).read a).isSome := by
    intro a ha
    simp [read_write, ha]
  exact
    { h with
      memCanonical := hwf
      memInside := hinside
      ring := rbInv_fresh esLegal capLegal fits written
      tickOnBytes := by simp [idle] }

theorem Inv.after_rbPush {s u : State} {count : Nat} {payload : List Byte} (h : Inv s) (init : s.rb.init = true)
    (nonzero : 0 < count) (whole : payload.length = count * s.rb.es.toNat) (free : count ≤ s.rb.free)
    (stores : copyIn s payload = .ok u) :
    Inv { u with
      rb := { u.rb with
        wrIdx := s.rb.advance s.rb.wrIdx payload.length
        full := if s.rb.advance s.rb.wrIdx payload.length = s.rb.rdIdx then true else s.rb.full } } := by
  obtain ⟨hwf, hinside⟩ := copyIn_keeps stores h.memCanonical h.memInside
  have hfits : payload.length ≤ s.rb.bytesInUse := whole ▸ count_mul_es_le_of_free free
  have written : ∀ a < s.rb.bytesInUse, (u.mem.read a).isSome := fun a ha =>
    copyIn_written (h.ring.wrBelow init) hfits stores (h.ring.written init a ha)
  have ring := rbInv_push h.ring init h.paramsLegal nonzero free (whole ▸ Nat.dvd_mul_left _ _) written
  rw [copyIn_frame stores] at hinside ⊢
  exact { h with memCanonical := hwf, memInside := hinside, ring := ring }

/-- A command of a port keeps the invariant. Only RB_INIT needs the command port idle: it could change the element
size under a tick. -/
theorem Effect.keeps_inv {s u : State} {i : Instr} (he : Effect s i u) (h : Inv s)
    (idle : i.port = .command → s.tick = none) : Inv u := by
  cases he with
  | nothing => exact h
  | rbInit esLegal capLegal fits clears => exact h.after_rbInit (idle rfl) esLegal capLegal fits clears
  | rbReset init => exact { h with ring := rbInv_reset h.ring init }
  | rbPush init nonzero whole free stores =>
    exact h.after_rbPush init (by bv_omega) whole free stores
  | rbPoll init _ _ takes => exact h.after_consume init (Nat.dvd_mul_left _ _) takes
  | decTick init bytes iter tick => exact h.after_iteration init bytes iter tick
  | regWr => exact { h with }
  | errSet code => exact { h with velocityHeld := by simpa using h.velocityHeld }
  | errClear => exact { h with }
  | rflQuery => exact { h with }
  | prcAdvance => exact { h with prcLegal := by have := h.prcLegal; split <;> bv_omega }
  | prcReset => exact { h with prcLegal := Nat.zero_le 2 }

/-- Settles O12: a refusal changes no field of the invariant, a tick in progress is an iteration on a byte buffer, and
a command of a port has an effect that keeps the invariant. -/
theorem stepKeepsTheInvariant : Obligations.StepKeepsTheInvariant := by
  intro s t h hstep
  rcases step_cases s with ⟨-, hs⟩ | ⟨p, -, hs⟩
  · cases hs.symm.trans hstep
    exact h
  · have h := h.after_pick
    rcases servePort_cases (hs.symm.trans hstep) with rfl | ⟨c, busy, htick⟩ | ⟨x, u, htakes, hrun⟩
    · exact h
    · obtain ⟨init, bytes⟩ := h.tickOnBytes (by rw [busy]; rfl)
      obtain ⟨r, v, tick, hiter, ha⟩ := tickStep_answered htick
      exact (h.after_iteration init bytes hiter tick).after_answer ha
    · have hu := h.after_take htakes
      rcases runTxn_cases hrun with ⟨st, v, rfl⟩ | ⟨i, hd, hexec⟩
      · exact hu.after_answer (answered_respond ..)
      · obtain ⟨w, he, ha⟩ := exec_effect hexec
        have idle : i.port = .command → u.tick = none := by
          rw [port_of_decode hd]
          rintro rfl
          cases htakes with
          | command idle _ => exact idle
        exact (he.keeps_inv hu idle).after_answer ha

/-! ### The runs -/

theorem Reachable.inv {s : State} (h : Reachable s) : Inv s := by
  induction h with
  | powerOn p legal => exact inv_powerOn legal
  | arrive p t s _ ih => cases p <;> exact { ih with }
  | order ps s _ ih => exact { ih with }
  | step s t _ next ih => exact stepKeepsTheInvariant s t ih next

/-- Settles O14: (a), (b) and (c) are parts of the invariant; the length is the capacity with the full flag and below
it without. -/
theorem ringInvariantsInEveryRun : Obligations.RingInvariantsInEveryRun := by
  intro s run init
  have hi := run.inv.ring
  refine ⟨⟨hi.wrBelow init, hi.rdBelow init⟩, ⟨hi.wrAligned init, hi.rdAligned init⟩, hi.fullMeets, ?_⟩
  cases hfull : s.rb.full with
  | true => simp [length_of_full hi init hfull]
  | false =>
    have := length_lt_of_not_full hi init hfull
    exact ⟨this.le, nofun, fun h => absurd h this.ne⟩

end Sys2Proof.Machine
end

section
/-! SUPPORT. Which port a step serves (spec/20_memory.md R81, spec/60_exceptions.md R294). -/

namespace Sys2Proof.Machine

/-- Where at most one port is ready no turn is used up. -/
theorem afterPick_of_not_both {s : State} (h : (prodReady s && cmdReady s) = false) : afterPick s = s := by
  simp [afterPick, h]

/-- Where both ports are ready the step is a commit of the port whose turn is first, and the turn is used up. -/
theorem step_of_turn {s : State} (p : Port) (ps : List Port) (hp : prodReady s = true) (hc : cmdReady s = true) :
    step { s with turns := p :: ps } = servePort p { s with turns := ps } := by
  have hp : prodReady { s with turns := p :: ps } = true := hp
  have hc : cmdReady { s with turns := p :: ps } = true := hc
  have hpick : pick { s with turns := p :: ps } = some p := by simp [pick, hp, hc, turn]
  have hafter : afterPick { s with turns := p :: ps } = { s with turns := ps } := by
    simp [afterPick, hp, hc, useTurn]
  rw [step_of_pick hpick, hafter]

/-- Settles O9: the first turn decides between two ready ports, and a port that is ready alone is picked. -/
theorem eitherPortMayGoFirst : Obligations.EitherPortMayGoFirst := by
  intro s p ps
  refine ⟨step_of_turn p ps, fun hp hc => ?_, fun hp hc => ?_⟩
  · have hpick : pick s = some .producer := by simp [pick, hp, hc]
    rw [step_of_pick hpick, afterPick_of_not_both (by simp [hc])]
  · have hpick : pick s = some .command := by simp [pick, hp, hc]
    rw [step_of_pick hpick, afterPick_of_not_both (by simp [hp])]

end Sys2Proof.Machine
end

section
/-! SUPPORT. The queue in the ring buffer, byte by byte, and what a push and a poll do to it (spec/20_memory.md R83,
spec/40_ringbuffer.md R142 to R145, R149). -/

namespace Sys2Proof.Machine

/-! ### The occupied bytes by count -/

/-- The ring registers after `n` bytes are pushed: the write index moves, and meeting the read index is being full
(R143). -/
def RbRegs.pushed (r : RbRegs) (n : Nat) : RbRegs :=
  { r with
    wrIdx := r.advance r.wrIdx n
    full := if r.advance r.wrIdx n = r.rdIdx then true else r.full }

/-- The ring registers after `n` bytes are consumed (R144). -/
def RbRegs.consumed (r : RbRegs) (n : Nat) : RbRegs := { r with full := false, rdIdx := r.advance r.rdIdx n }

theorem occ_of_full {r : RbRegs} (full : r.full = true) : r.occ = r.bytesInUse := by simp [RbRegs.occ, full]

/-- The occupied byte count of a buffer that is not full is the one distance below N from the read index to the write
index. -/
theorem occ_eq_of_distance {r : RbRegs} {k : Nat} (hw : r.wrIdx.toNat < r.bytesInUse)
    (hr : r.rdIdx.toNat < r.bytesInUse) (notFull : r.full = false) (hk : k < r.bytesInUse)
    (distance : r.wrIdx.toNat = (r.rdIdx.toNat + k) % r.bytesInUse) : r.occ = k := by
  rw [ring_mod hr hk] at distance
  rw [occ_cases r hw hr, notFull, if_neg Bool.false_ne_true]
  split_ifs at distance ⊢ <;> omega

section Regs
variable {p : Params} {r : RbRegs} {m : Memory} (hi : RbInv p r m) (init : r.init = true)
include hi init

theorem occ_le_of_ring : r.occ ≤ r.bytesInUse := occ_le r (hi.wrBelow init) (hi.rdBelow init)

/-- Aligned indices occupy whole elements. -/
theorem es_dvd_occ : r.es.toNat ∣ r.occ := by
  have hN : r.es.toNat ∣ r.bytesInUse := Nat.dvd_mul_left _ _
  have hw := hi.wrAligned init
  have hr := hi.rdAligned init
  rw [occ_cases r (hi.wrBelow init) (hi.rdBelow init)]
  split_ifs
  · exact hN
  · exact Nat.dvd_sub hw hr
  · exact Nat.dvd_sub (hw.add hN) hr

theorem length_mul_es : r.length * r.es.toNat = r.occ := Nat.div_mul_cancel (es_dvd_occ hi init)

/-- Free elements are bytes beside the occupied ones. -/
theorem occ_add_count_mul_es_le {count : Nat} (nonzero : 0 < count) (free : count ≤ r.free) :
    r.occ + count * r.es.toNat ≤ r.bytesInUse := by
  rw [← length_mul_es hi init, ← Nat.add_mul]
  refine Nat.mul_le_mul_right _ ?_
  unfold RbRegs.free at free
  omega

/-- The write index stands right after the occupied bytes. -/
theorem wrIdx_eq_add_occ : r.wrIdx.toNat = (r.rdIdx.toNat + r.occ) % r.bytesInUse := by
  have hw := hi.wrBelow init
  have hr := hi.rdBelow init
  rw [occ_cases r hw hr]
  split_ifs with hfull hle
  · rw [Nat.add_mod_right, Nat.mod_eq_of_lt hr, hi.fullMeets hfull]
  · rw [Nat.add_sub_cancel' hle, Nat.mod_eq_of_lt hw]
  · rw [Nat.add_sub_cancel' (by omega), Nat.add_mod_right, Nat.mod_eq_of_lt hw]

/-- Pushing into free space adds to the occupied bytes: the write index meets the read index exactly when the last free
byte is taken, and then the full flag says so. -/
theorem occ_pushed (legal : p.wf) {n : Nat} (nonzero : 0 < n) (room : r.occ + n ≤ r.bytesInUse) :
    (r.pushed n).occ = r.occ + n := by
  have hr := hi.rdBelow init
  have hnew : (r.advance r.wrIdx n).toNat = (r.rdIdx.toNat + (r.occ + n)) % r.bytesInUse := by
    rw [advance_toNat_of_ring hi init legal, wrIdx_eq_add_occ hi init, Nat.mod_add_mod, Nat.add_assoc]
  rcases room.lt_or_eq with hlt | heq
  · have hne : r.advance r.wrIdx n ≠ r.rdIdx := by
      intro hmeet
      rw [hmeet, ring_mod hr hlt] at hnew
      split at hnew <;> omega
    have hnotFull : r.full = false := by
      by_contra hfull
      have := occ_of_full (eq_true_of_ne_false hfull)
      omega
    exact occ_eq_of_distance (r := r.pushed n) (advance_below hi init legal _ _) hr
      ((if_neg hne).trans hnotFull) hlt hnew
  · have hmeet : r.advance r.wrIdx n = r.rdIdx := by
      rw [heq, Nat.add_mod_right, Nat.mod_eq_of_lt hr] at hnew
      exact BitVec.eq_of_toNat_eq hnew
    exact (occ_of_full (r := r.pushed n) (if_pos hmeet)).trans heq.symm

/-- Consuming occupied bytes leaves the others. -/
theorem occ_consumed (legal : p.wf) {n : Nat} (nonzero : 0 < n) (held : n ≤ r.occ) :
    (r.consumed n).occ = r.occ - n := by
  have hle := occ_le_of_ring hi init
  have hnew : r.wrIdx.toNat = ((r.advance r.rdIdx n).toNat + (r.occ - n)) % r.bytesInUse := by
    rw [advance_toNat_of_ring hi init legal, Nat.mod_add_mod, Nat.add_assoc, Nat.add_sub_cancel' held,
      wrIdx_eq_add_occ hi init]
  exact occ_eq_of_distance (r := r.consumed n) (hi.wrBelow init) (advance_below hi init legal _ _) rfl
    (show r.occ - n < r.bytesInUse by omega) hnew

end Regs

/-- Two distances below N from one index lead to one place only if they are the same. -/
theorem ring_add_inj {a i j n : Nat} (hi : i < n) (hj : j < n) (h : (a + i) % n = (a + j) % n) : i = j :=
  (Nat.ModEq.add_left_cancel' a h).eq_of_lt_of_lt hi hj

/-! ### The contents byte by byte -/

@[simp] theorem contents_respond (p : Port) (st : Status) (v : Word) (d : List Byte) (s : State) :
    contents (respond p st v d s) = contents s := by
  cases p <;> rfl

section Contents
variable {s : State} (hi : RbInv s.params s.rb s.mem) (init : s.rb.init = true)
include hi init

theorem copyOut_occ : copyOut s s.rb.occ = .ok (contents s) := by
  obtain ⟨out, hout⟩ := copyOut_total hi init (occ_le_of_ring hi init)
  rw [contents, hout]

theorem contents_spec : (contents s).length = s.rb.occ ∧
    ∀ i < s.rb.occ, s.mem.read ((s.rb.rdIdx.toNat + i) % s.rb.bytesInUse) = (contents s)[i]? :=
  copyOut_ok (hi.rdBelow init) (occ_le_of_ring hi init) (copyOut_occ hi init)

/-- The contents are the one list of the occupied length whose byte i stands at (RB_RD_IDX + i) mod N. -/
theorem contents_eq {bs : List Byte} (len : bs.length = s.rb.occ)
    (bytes : ∀ i < s.rb.occ, s.mem.read ((s.rb.rdIdx.toNat + i) % s.rb.bytesInUse) = bs[i]?) : contents s = bs := by
  obtain ⟨hlen, hbytes⟩ := contents_spec hi init
  apply List.ext_getElem?
  intro i
  by_cases h : i < s.rb.occ
  · rw [← hbytes i h, bytes i h]
  · rw [List.getElem?_eq_none (by omega), List.getElem?_eq_none (by omega)]

end Contents

/-! ### What a push and a poll do to the contents -/

/-- Storing bytes into free space and moving the write index appends them. -/
theorem contents_push {s u : State} {count : Nat} {payload : List Byte} (h : Inv s) (init : s.rb.init = true)
    (nonzero : 0 < count) (whole : payload.length = count * s.rb.es.toNat) (free : count ≤ s.rb.free)
    (stores : copyIn s payload = .ok u) :
    contents { u with rb := s.rb.pushed payload.length } = contents s ++ payload := by
  have hi := h.ring
  have hroom : s.rb.occ + payload.length ≤ s.rb.bytesInUse := whole ▸ occ_add_count_mul_es_le hi init nonzero free
  have hpos : 0 < payload.length := whole ▸ Nat.mul_pos nonzero (hi.esLegal init)
  have hocc := occ_pushed hi init h.paramsLegal hpos hroom
  obtain ⟨hlen, hbytes⟩ := contents_spec hi init
  obtain ⟨-, inside, outside⟩ := copyIn_ok (hi.wrBelow init) (by omega) stores
  have hring : RbInv u.params (s.rb.pushed payload.length) u.mem := by
    have hafter := (h.after_rbPush init nonzero whole free stores).ring
    rw [copyIn_frame stores] at hafter ⊢
    exact hafter
  rw [wrIdx_eq_add_occ hi init] at inside outside
  simp only [Nat.mod_add_mod, Nat.add_assoc] at inside outside
  refine contents_eq (s := { u with rb := s.rb.pushed payload.length }) hring init ?_ fun i hlt => ?_
  · rw [List.length_append, hlen]
    exact hocc.symm
  · have hlt : i < s.rb.occ + payload.length := hocc ▸ hlt
    show u.mem.read ((s.rb.rdIdx.toNat + i) % s.rb.bytesInUse) = _
    by_cases hold : i < s.rb.occ
    · have hkeeps := outside ((s.rb.rdIdx.toNat + i) % s.rb.bytesInUse) fun j hj heq => by
        have := ring_add_inj (by omega) (by omega) heq
        omega
      rw [hkeeps, hbytes i hold, List.getElem?_append_left (by omega)]
    · obtain ⟨j, rfl⟩ := Nat.exists_eq_add_of_le (Nat.le_of_not_lt hold)
      rw [inside j (by omega), List.getElem?_append_right (by omega), hlen, Nat.add_sub_cancel_left]

/-- Consuming whole elements takes them off the front. -/
theorem contents_consume {s u : State} {n : Nat} {out : List Byte} (h : Inv s) (init : s.rb.init = true)
    (nonzero : 0 < n) (whole : s.rb.es.toNat ∣ n) (held : n ≤ s.rb.occ) (takes : consume s n = .ok (out, u)) :
    out ++ contents u = contents s ∧ out.length = n := by
  have hi := h.ring
  have hle := occ_le_of_ring hi init
  have hafter := (h.after_consume init whole takes).ring
  have hocc := occ_consumed hi init h.paramsLegal nonzero held
  obtain ⟨hcopy, rfl⟩ := consume_ok takes
  obtain ⟨houtLen, hout⟩ := copyOut_ok (hi.rdBelow init) (by omega) hcopy
  obtain ⟨hlen, hbytes⟩ := contents_spec hafter init
  have hlen : (contents { s with rb := s.rb.consumed n }).length = s.rb.occ - n := hlen.trans hocc
  have hbytes : ∀ i < s.rb.occ - n, s.mem.read ((s.rb.rdIdx.toNat + (n + i)) % s.rb.bytesInUse) =
      (contents { s with rb := s.rb.consumed n })[i]? := by
    intro i hlt
    rw [← Nat.add_assoc, ← Nat.mod_add_mod, ← advance_toNat_of_ring hi init h.paramsLegal]
    exact hbytes i (hocc.symm ▸ hlt)
  refine ⟨(contents_eq hi init ?_ fun i hlt => ?_).symm, houtLen⟩
  · rw [List.length_append, houtLen]
    show n + (contents { s with rb := s.rb.consumed n }).length = _
    omega
  · by_cases hfront : i < n
    · rw [hout i hfront, List.getElem?_append_left (by omega)]
    · obtain ⟨j, rfl⟩ := Nat.exists_eq_add_of_le (Nat.le_of_not_lt hfront)
      rw [hbytes j (by omega), List.getElem?_append_right (by omega), houtLen, Nat.add_sub_cancel_left]
      rfl

/-- The element at the read index is the front of the contents: it does not wrap (R145). -/
theorem contents_front {s : State} {out : List Byte} (hi : RbInv s.params s.rb s.mem) (init : s.rb.init = true)
    (nonempty : s.rb.length ≠ 0) (reads : memRead s s.rb.rdIdx.toNat s.rb.es.toNat = .ok out) :
    out = (contents s).take s.rb.es.toNat := by
  have hend := index_add_es_le (hi.rdBelow init) (hi.rdAligned init)
  have hocc : s.rb.es.toNat ≤ s.rb.occ :=
    length_mul_es hi init ▸ Nat.le_mul_of_pos_left _ (Nat.pos_of_ne_zero nonempty)
  obtain ⟨hlen, hbytes⟩ := contents_spec hi init
  obtain ⟨-, houtLen, hout⟩ := memRead_ok reads
  apply List.ext_getElem?
  intro i
  by_cases h : i < s.rb.es.toNat
  · rw [← hout i h, List.getElem?_take_of_lt h, ← hbytes i (by omega), Nat.mod_eq_of_lt (by omega)]
  · rw [List.getElem?_eq_none (by omega), List.getElem?_eq_none (by rw [List.length_take]; omega)]

/-! ### The commands answered OK -/

theorem execRbPush_ok {count : Word} {payload d : List Byte} {s t : State} {v : Word}
    (h : execRbPush count payload s = .next t) (ok : t.prodOut = ⟨.ok, v, d⟩ :: s.prodOut) :
    count ≠ 0 ∧ payload.length = count.toNat * s.rb.es.toNat ∧ count.toNat ≤ s.rb.free ∧
      ∃ u, copyIn s payload = .ok u ∧
        t = respond .producer .ok 0 [] { u with rb := s.rb.pushed payload.length } := by
  unfold execRbPush at h
  split_ifs at h with hinit hcount hlen hfree
  · cases h; simp at ok
  · cases h; simp at ok
  · cases h; simp at ok
  · cases h; simp at ok
  · cases hc : copyIn s payload with
    | error e => simp only [hc] at h; cases h
    | ok u =>
      simp only [hc] at h
      cases h
      refine ⟨hcount, not_not.mp hlen, Nat.le_of_not_lt hfree, u, rfl, ?_⟩
      rw [copyIn_frame hc]
      rfl

theorem execRbPoll_ok {count v : Word} {d : List Byte} {s t : State} (h : execRbPoll count s = .next t)
    (ok : t.cmdOut = ⟨.ok, v, d⟩ :: s.cmdOut) :
    count ≠ 0 ∧ count.toNat ≤ s.rb.length ∧
      ∃ u, consume s (count.toNat * s.rb.es.toNat) = .ok (d, u) ∧ t = respond .command .ok 0 d u := by
  unfold execRbPoll at h
  split_ifs at h with hinit hcount hempty hlen
  · cases h; simp at ok
  · cases h; simp at ok
  · cases h; simp at ok
  · cases h; simp at ok
  · cases hc : consume s (count.toNat * s.rb.es.toNat) with
    | error e => simp only [hc] at h; cases h
    | ok o =>
      obtain ⟨out, u⟩ := o
      simp only [hc] at h
      cases h
      have hd : out = d := congrArg Response.data (List.head_eq_of_cons_eq ok)
      subst hd
      exact ⟨hcount, Nat.le_of_not_lt hlen, u, rfl, rfl⟩

theorem execRbPeek_ok {v : Word} {d : List Byte} {s t : State} (h : execRbPeek s = .next t)
    (ok : t.cmdOut = ⟨.ok, v, d⟩ :: s.cmdOut) :
    s.rb.length ≠ 0 ∧ memRead s s.rb.rdIdx.toNat s.rb.es.toNat = .ok d ∧ t = respond .command .ok 0 d s := by
  unfold execRbPeek at h
  split_ifs at h with hinit hempty
  · cases h; simp at ok
  · cases h; simp at ok
  · cases hm : memRead s s.rb.rdIdx.toNat s.rb.es.toNat with
    | error e => simp only [hm] at h; cases h
    | ok out =>
      simp only [hm] at h
      cases h
      have hd : out = d := congrArg Response.data (List.head_eq_of_cons_eq ok)
      subst hd
      exact ⟨hempty, rfl, rfl⟩

/-- Settles O21: a command answered OK has passed its checks, so its transfer is one of the contents. -/
theorem bufferIsAQueue : Obligations.BufferIsAQueue := by
  intro s h init
  have hi := h.ring
  refine ⟨?_, ?_, ?_, ?_⟩
  · rw [(contents_spec hi init).1, length_mul_es hi init]
  · rintro count payload t ⟨hexec, v, d, ok⟩
    obtain ⟨nonzero, whole, free, u, stores, rfl⟩ := execRbPush_ok hexec ok
    rw [contents_respond]
    exact contents_push h init (by bv_omega) whole free stores
  · intro count t v data hexec ok
    obtain ⟨nonzero, held, u, takes, rfl⟩ := execRbPoll_ok hexec ok
    have hbytes : count.toNat * s.rb.es.toNat ≤ s.rb.occ := length_mul_es hi init ▸ Nat.mul_le_mul_right _ held
    rw [contents_respond]
    exact contents_consume h init (Nat.mul_pos (by bv_omega) (hi.esLegal init)) (Nat.dvd_mul_left _ _) hbytes takes
  · intro t v data hexec ok
    obtain ⟨nonempty, reads, rfl⟩ := execRbPeek_ok hexec ok
    exact ⟨contents_respond .., contents_front hi init nonempty reads⟩

end Sys2Proof.Machine
end

section
/-! SUPPORT. What the producer port leaves alone, and that a push and a command that leaves the buffer alone commute
(spec/20_memory.md R77, R81, R83, R84, spec/42_decoder.md R213). -/

namespace Sys2Proof.Machine

/-! ### A producer commit -/

/-- The only instruction of the producer port is a push (R104). -/
theorem eq_rbPush_of_port {i : Instr} (h : i.port = .producer) : ∃ count payload, i = .rbPush count payload := by
  cases i with
  | rbPush count payload => exact ⟨count, payload, rfl⟩
  | _ => cases h

/-- A push writes the write index, the full flag and MEM. -/
theorem Effect.rbPush_frame {s u : State} {count : Word} {payload : List Byte}
    (h : Effect s (.rbPush count payload) u) :
    u = { s with rb := { s.rb with wrIdx := u.rb.wrIdx, full := u.rb.full }, mem := u.mem } := by
  cases h with
  | nothing => rfl
  | rbPush _ _ _ _ stores => rw [copyIn_frame stores]

/-- A push keeps the contents at the front. -/
theorem Effect.keeps_queued {s u : State} {count : Word} {payload : List Byte}
    (he : Effect s (.rbPush count payload) u) (h : Inv s) (init : s.rb.init = true) : contents s <+: contents u := by
  cases he with
  | nothing => exact List.prefix_rfl
  | rbPush _ nonzero whole free stores =>
    have happend := contents_push h init (by bv_omega) whole free stores
    rw [copyIn_frame stores] at happend ⊢
    exact ⟨payload, happend.symm⟩

/-- The producer port's answer leaves the responses of the command port. -/
theorem cmdOut_of_producer_answers {s t : State} (h : Answers .producer s (.next t)) : t.cmdOut = s.cmdOut := by
  obtain ⟨st, v, d, u, ⟨⟩, -, -, -, hcmdOut, -⟩ := h
  exact hcmdOut

/-- What a producer commit does: from the state with the turn used up and the transaction taken, a push has its effect
(none for a transaction that is refused) and the producer port gives an answer. -/
theorem producer_commit {s t : State} (hpick : pick s = some .producer) (h : step s = .next t) :
    ∃ turns freeTurns prodIn count payload v,
      Effect { s with turns := turns, freeTurns := freeTurns, prodIn := prodIn } (.rbPush count payload) v ∧
        t = { v with prodOut := t.prodOut } := by
  rw [step_of_pick hpick] at h
  obtain ⟨turns, freeTurns, hs⟩ := afterPick_eq s
  rw [hs] at h
  cases hin : s.prodIn with
  | nil =>
    simp only [servePort, hin] at h
    cases h
    exact ⟨turns, freeTurns, _, 0, [], _, .nothing _, rfl⟩
  | cons x xs =>
    rw [serve_producer (s := { s with turns := turns, freeTurns := freeTurns }) hin] at h
    rcases runTxn_cases h with ⟨st, v, rfl⟩ | ⟨i, hd, hexec⟩
    · exact ⟨turns, freeTurns, xs, 0, [], _, .nothing _, rfl⟩
    · obtain ⟨count, payload, rfl⟩ := eq_rbPush_of_port (port_of_decode hd)
      have hanswer := cmdOut_of_producer_answers (runTxn_producer_answers h)
      obtain ⟨v, he, cmdOut, prodOut, rfl⟩ := exec_effect hexec
      refine ⟨turns, freeTurns, xs, count, payload, v, he, ?_⟩
      have hcmdOut : cmdOut = v.cmdOut := by
        rw [he.rbPush_frame]
        exact hanswer
      rw [hcmdOut]

/-- Settles O40: a push writes the buffer alone, and its answer goes to the producer port. -/
theorem producerTouchesOnlyTheBuffer : Obligations.ProducerTouchesOnlyTheBuffer := by
  intro s t hpick h
  obtain ⟨turns, freeTurns, prodIn, count, payload, v, he, ht⟩ := producer_commit hpick h
  rw [ht, he.rbPush_frame]

/-- Settles O41: a push appends to the contents or, refused, leaves them. -/
theorem producerOnlyAppends : Obligations.ProducerOnlyAppends := by
  intro s t hinv init hpick h
  obtain ⟨turns, freeTurns, prodIn, count, payload, v, he, ht⟩ := producer_commit hpick h
  rw [ht]
  exact he.keeps_queued { hinv with } init

/-! ### A push and a command that leaves the buffer alone -/

/-- `s` with the ring buffer and the producer responses of `b`: the part of the state a push works on. -/
def State.withBufferOf (b s : State) : State := { s with rb := b.rb, mem := b.mem, prodOut := b.prodOut }

/-- A function on the next state of a result; a stop stays that stop. -/
def mapNext (f : State → State) : Result → Result
  | .next t => .next (f t)
  | .fault e => .fault e
  | .refused r => .refused r

section WithBufferOf
variable {s u : State} (same : u.params = s.params)
include same

theorem memWrite_withBufferOf (off : Nat) (bs : List Byte) :
    memWrite (s.withBufferOf u) off bs = (memWrite s off bs).map (·.withBufferOf u) := by
  have hbound : (s.withBufferOf u).params.rbMaxBytes = s.params.rbMaxBytes := congrArg Params.rbMaxBytes same
  unfold memWrite
  rw [hbound]
  split
  · rfl
  · rfl

theorem copyIn_withBufferOf (bs : List Byte) :
    copyIn (s.withBufferOf u) bs = (copyIn s bs).map (·.withBufferOf u) := by
  unfold copyIn
  simp only [show (s.withBufferOf u).rb = s.rb from rfl, memWrite_withBufferOf same]
  cases hw : memWrite s s.rb.wrIdx.toNat (bs.take (min bs.length (s.rb.bytesInUse - s.rb.wrIdx.toNat))) with
  | error e => rfl
  | ok s' =>
    have hsame : u.params = s'.params := by
      rw [(memWrite_ok hw).2]
      exact same
    exact memWrite_withBufferOf hsame _ _

/-- A push reads and writes, beside the parameters, the ring buffer and its own responses alone. -/
theorem execRbPush_withBufferOf (count : Word) (payload : List Byte) :
    execRbPush count payload (s.withBufferOf u) = mapNext (·.withBufferOf u) (execRbPush count payload s) := by
  unfold execRbPush
  rw [copyIn_withBufferOf same, show (s.withBufferOf u).rb = s.rb from rfl]
  split_ifs
  · rfl
  · rfl
  · rfl
  · rfl
  · cases copyIn s payload <;> rfl

end WithBufferOf

/-- A push leaves everything but the ring buffer and its own responses. -/
theorem execRbPush_eq_withBufferOf {s t : State} {count : Word} {payload : List Byte}
    (h : execRbPush count payload s = .next t) : t = t.withBufferOf s := by
  have := execRbPush_withBufferOf (s := s) (u := s) rfl count payload
  rw [show s.withBufferOf s = s from rfl, h] at this
  injection this

section LeavesBuffer
variable {i : Instr} (leaves : leavesBuffer i = true)
include leaves

/-- A command that leaves the buffer does the same beside any buffer. -/
theorem exec_withBufferOf (b s : State) : exec i (b.withBufferOf s) = mapNext b.withBufferOf (exec i s) := by
  cases i with
  | ckSum seed len payload =>
    simp only [exec, execCkSum]
    split
    · rfl
    · rfl
  | ckValid seed len expected payload =>
    simp only [exec, execCkValid]
    split
    · rfl
    · rfl
  | regWr reg val =>
    simp only [exec, execRegWr]
    split
    · rfl
    · split
      · rfl
      · rfl
  | errSet code => rfl
  | errClear => rfl
  | rflQuery => rfl
  | prcAdvance => rfl
  | prcReset => rfl
  | _ => cases leaves

/-- A command that leaves the buffer never stops the machine, in any state. -/
theorem exec_next_of_leavesBuffer (s : State) : ∃ u, exec i s = .next u := by
  cases i with
  | ckSum seed len payload => exact (execCkSum_answers seed len payload s).next
  | ckValid seed len expected payload => exact (execCkValid_answers seed len expected payload s).next
  | regWr reg val => exact (execRegWr_answers reg val s).next
  | errSet code => exact ⟨_, rfl⟩
  | errClear => exact ⟨_, rfl⟩
  | rflQuery => exact ⟨_, rfl⟩
  | prcAdvance => exact ⟨_, rfl⟩
  | prcReset => exact ⟨_, rfl⟩
  | _ => cases leaves

end LeavesBuffer

/-- No command changes the parameters. -/
theorem exec_params {i : Instr} {s t : State} (h : exec i s = .next t) : t.params = s.params := by
  obtain ⟨-, -, -, -, -, -, -, -, -, -, -, -, -, hparams, -⟩ := onlyNamedCommandsWriteState i s t h
  exact hparams

/-- Settles O42: the push works on the buffer and the command beside it. -/
theorem pushCommutesWithOtherCommands : Obligations.PushCommutesWithOtherCommands := by
  intro i count payload s leaves
  obtain ⟨u, hi⟩ := exec_next_of_leavesBuffer leaves s
  have beside (b : State) : exec i (b.withBufferOf s) = .next (b.withBufferOf u) := by
    rw [exec_withBufferOf leaves, hi, mapNext]
  have hu : u = s.withBufferOf u := by
    have := hi.symm.trans (beside s)
    injection this
  have hpush : exec (.rbPush count payload) u = mapNext (·.withBufferOf u) (exec (.rbPush count payload) s) := by
    rw [hu]
    exact execRbPush_withBufferOf (exec_params hi) count payload
  simp only [execAll, hi, hpush]
  cases h : exec (.rbPush count payload) s with
  | next t =>
    have hsecond : exec i t = .next (t.withBufferOf u) := by
      rw [execRbPush_eq_withBufferOf h]
      exact beside t
    simp only [hsecond, mapNext]
  | fault e => rfl
  | refused r => rfl

end Sys2Proof.Machine
end

section
/-! SUPPORT. The encoder and the decoder are inverse to each other on each port (spec/30_encoding.md R101, R103, R106,
R107, R114). The hinge is what a row of R106 says of a word: the word matches the row exactly when it is the word of
the instruction the decoder assembles from it. -/

namespace Sys2Proof.Machine

/-! ### Words and their fields (R101) -/

section Bitwise
variable (w v : CmdWord)

@[simp] theorem fieldOPC_and : fieldOPC (w &&& v) = fieldOPC w &&& fieldOPC v := BitVec.extractLsb'_and
@[simp] theorem fieldX_and : fieldX (w &&& v) = fieldX w &&& fieldX v := BitVec.extractLsb'_and
@[simp] theorem fieldRSV_and : fieldRSV (w &&& v) = fieldRSV w &&& fieldRSV v := BitVec.extractLsb'_and
@[simp] theorem fieldY_and : fieldY (w &&& v) = fieldY w &&& fieldY v := BitVec.extractLsb'_and
@[simp] theorem fieldOPC_or : fieldOPC (w ||| v) = fieldOPC w ||| fieldOPC v := BitVec.extractLsb'_or
@[simp] theorem fieldX_or : fieldX (w ||| v) = fieldX w ||| fieldX v := BitVec.extractLsb'_or
@[simp] theorem fieldRSV_or : fieldRSV (w ||| v) = fieldRSV w ||| fieldRSV v := BitVec.extractLsb'_or
@[simp] theorem fieldY_or : fieldY (w ||| v) = fieldY w ||| fieldY v := BitVec.extractLsb'_or

end Bitwise

/-- A word is its four fields. -/
theorem cmdWord_eq_append (w : CmdWord) : w = fieldOPC w ++ fieldX w ++ fieldRSV w ++ fieldY w := by
  simp only [fieldOPC, fieldX, fieldRSV, fieldY, BitVec.extractLsb'_append_extractLsb'_eq_extractLsb']
  simp

theorem cmdWord_eq_of_fields {w v : CmdWord} (hopc : fieldOPC w = fieldOPC v) (hx : fieldX w = fieldX v)
    (hrsv : fieldRSV w = fieldRSV v) (hy : fieldY w = fieldY v) : w = v := by
  rw [cmdWord_eq_append w, hopc, hx, hrsv, hy, ← cmdWord_eq_append v]

/-- Y is LEN over EXP. -/
theorem fieldLEN_append_fieldEXP (w : CmdWord) : fieldLEN w ++ fieldEXP w = fieldY w := by
  simp only [fieldLEN, fieldEXP, fieldY, BitVec.extractLsb'_append_extractLsb'_eq_extractLsb']

/-- LEN over zero is Y without EXP. -/
theorem fieldLEN_append_zero (w : CmdWord) : fieldLEN w ++ 0#16 = fieldY w &&& 0xFFFF0000#32 := by
  have masks : 0xFFFF0000#32 = BitVec.allOnes 16 ++ 0#16 := rfl
  rw [← fieldLEN_append_fieldEXP, masks]
  refine .trans ?_ BitVec.and_append.symm
  rw [BitVec.and_allOnes, BitVec.and_zero]

/-- CODE widened is Y without the bits above it. -/
theorem setWidth_fieldCODE (w : CmdWord) : (fieldCODE w).setWidth 32 = fieldY w &&& 0xFF#32 := by
  have low : (fieldY w).toNat &&& 255 = (fieldY w).toNat % 256 := Nat.and_two_pow_sub_one_eq_mod _ 8
  apply BitVec.eq_of_toNat_eq
  simp [fieldCODE_eq, low]
  omega

section Operands
variable (op : Opcode) (x len expected : BitVec 16) (code : Byte)

@[simp] theorem fieldLEN_wordW : fieldLEN (wordW op x (len ++ expected)) = len := by
  rw [fieldLEN_eq, fieldY_wordW]
  exact BitVec.extractLsb'_append_eq_left

@[simp] theorem fieldEXP_wordW : fieldEXP (wordW op x (len ++ expected)) = expected := by
  rw [fieldEXP_eq, fieldY_wordW]
  exact BitVec.extractLsb'_append_eq_right

@[simp] theorem fieldCODE_wordW : fieldCODE (wordW op x (code.setWidth 32)) = code := by
  rw [fieldCODE_eq, fieldY_wordW, BitVec.extractLsb'_setWidth_of_le (by decide), BitVec.extractLsb'_eq_self]

end Operands

/-! ### The rows of R106 by field -/

/-- MATCH is the opcode's word with X and Y zero. -/
theorem matchWord_eq_wordW (op : Opcode) : op.matchWord = wordW op 0 0 := by cases op <;> rfl

/-- The bits MATCH sets are under the mask. -/
theorem matchWord_and_mask (op : Opcode) : op.matchWord &&& op.mask = op.matchWord := by cases op <;> rfl

/-- The operand bits of a row are those outside its mask; OPC and RSV have none. -/
@[simp] theorem fieldOPC_not_mask (op : Opcode) : fieldOPC (~~~op.mask) = 0 := by cases op <;> rfl

@[simp] theorem fieldRSV_not_mask (op : Opcode) : fieldRSV (~~~op.mask) = 0 := by cases op <;> rfl

/-- X is operand bits for five opcodes, all of it. -/
theorem fieldX_not_mask (op : Opcode) :
    fieldX (~~~op.mask) = if op ∈ [.rbInit, .ckSum, .ckValid, .regRd, .regWr] then BitVec.allOnes 16 else 0 := by
  cases op <;> rfl

/-- All of Y is operand bits for five opcodes, its high half for CK_SUM and its low byte for ERR_SET. -/
theorem fieldY_not_mask (op : Opcode) :
    fieldY (~~~op.mask) =
      if op ∈ [.rbInit, .rbPush, .rbPoll, .ckValid, .regWr] then BitVec.allOnes 32
      else if op = .ckSum then 0xFFFF0000
      else if op = .errSet then 0xFF
      else 0 := by
  cases op <;> rfl

/-- A word of an opcode with the operand bits of `w` in X and Y is MATCH with the operand bits of `w`. -/
theorem wordW_eq_match_or {op : Opcode} {x : BitVec 16} {y : Word} {w : CmdWord}
    (hx : x = fieldX w &&& fieldX (~~~op.mask)) (hy : y = fieldY w &&& fieldY (~~~op.mask)) :
    wordW op x y = op.matchWord ||| (w &&& ~~~op.mask) := by
  apply cmdWord_eq_of_fields <;> simp [matchWord_eq_wordW, hx, hy]

/-! ### Operands there and back (R103) -/

/-- The word of what the decoder assembles is MATCH with the operand bits of the decoded word. -/
theorem encodeWord_operands (op : Opcode) (w : CmdWord) (payload : List Byte) :
    encodeWord (operands op w payload) = op.matchWord ||| (w &&& ~~~op.mask) := by
  cases op <;> apply wordW_eq_match_or <;>
    simp [-BitVec.reduceAllOnes, fieldX_not_mask, fieldY_not_mask, fieldLEN_append_fieldEXP, fieldLEN_append_zero,
      setWidth_fieldCODE]

/-- The decoder assembles from an instruction's word and payload that instruction. -/
theorem operands_encodeWord (i : Instr) : operands i.opcode (encodeWord i) i.payload = i := by
  cases i <;> simp [Instr.opcode, Instr.payload, encodeWord, operands]

/-- A word matches the row of an opcode exactly when it is the word of what the decoder assembles for that opcode. -/
theorem matches_iff_encodeWord_operands (op : Opcode) (w : CmdWord) (payload : List Byte) :
    w &&& op.mask = op.matchWord ↔ encodeWord (operands op w payload) = w := by
  rw [encodeWord_operands]
  constructor
  · intro h
    calc op.matchWord ||| (w &&& ~~~op.mask)
      _ = (w &&& op.mask) ||| (w &&& ~~~op.mask) := by rw [h]
      _ = w := by rw [← BitVec.and_or_distrib_left, BitVec.or_not_self, BitVec.and_allOnes]
  · intro h
    calc w &&& op.mask
      _ = (op.matchWord ||| (w &&& ~~~op.mask)) &&& op.mask := by rw [h]
      _ = op.matchWord := by simp [BitVec.and_or_distrib_right, BitVec.and_assoc, matchWord_and_mask]

/-- The word of an instruction matches the row of its opcode. -/
theorem encodeWord_matches (i : Instr) : encodeWord i &&& i.opcode.mask = i.opcode.matchWord :=
  (matches_iff_encodeWord_operands i.opcode (encodeWord i) i.payload).mpr (congrArg encodeWord (operands_encodeWord i))

/-- A word that matches the row of an opcode has its OPC value. -/
theorem fieldOPC_of_matches {op : Opcode} {w : CmdWord} (h : w &&& op.mask = op.matchWord) : fieldOPC w = op.code := by
  rw [← (matches_iff_encodeWord_operands op w []).mp h, encodeWord_operands]
  simp [matchWord_eq_wordW]

/-! ### Payloads (R100, R108) -/

/-- An instruction whose opcode takes no payload carries none. -/
theorem payload_eq_nil {i : Instr} (h : i.opcode.takesPayload = false) : i.payload = [] := by
  cases i with
  | rbPush => cases h
  | ckSum => cases h
  | ckValid => cases h
  | _ => rfl

/-- What the decoder assembles carries the payload it was given, if the opcode takes one or there is none. -/
theorem payload_operands {op : Opcode} {payload : List Byte} (h : op.takesPayload = false → payload = [])
    (w : CmdWord) : (operands op w payload).payload = payload := by
  cases op with
  | rbPush => rfl
  | ckSum => rfl
  | ckValid => rfl
  | _ => exact (h rfl).symm

/-! ### What a port decodes (R107, R108, R114) -/

section Decode
variable {p : Port} {w : CmdWord} {payload : List Byte}

/-- A port decodes a transaction exactly when the word matches the row of an opcode it accepts and the opcode takes
the payload, if there is one. -/
theorem decode_eq_ok_iff {i : Instr} :
    decode p w payload = .ok i ↔
      ∃ op, w &&& op.mask = op.matchWord ∧ p = op.port ∧ (op.takesPayload = false → payload = []) ∧
        i = operands op w payload := by
  constructor
  · intro h
    unfold decode at h
    split at h
    · cases h
    · next op _ =>
      split_ifs at h with hmatch hport hstray
      cases h
      exact ⟨op, not_not.mp hmatch, not_not.mp hport, by tauto, rfl⟩
  · rintro ⟨op, hmatch, rfl, hpayload, rfl⟩
    simpa [decode, fieldOPC_of_matches hmatch, hmatch] using hpayload

/-- A payload on a command that carries none is refused as that. -/
theorem decode_stray {i : Instr} (htakes : i.opcode.takesPayload = false) (hpayload : payload ≠ []) :
    decode i.port (encodeWord i) payload = .error (.strayPayload i) := by
  have hmatch := encodeWord_matches i
  have hi := operands_encodeWord i
  rw [payload_eq_nil htakes] at hi
  simp [decode, fieldOPC_of_matches hmatch, hmatch, Instr.port, htakes, hpayload, hi]

end Decode

/-- Settles O1: an instruction's word matches the row of its opcode, and assembling its operands gives it back. -/
theorem decodeOfEncodeIsIdentity : Obligations.DecodeOfEncodeIsIdentity := by
  intro i
  exact decode_eq_ok_iff.mpr
    ⟨i.opcode, encodeWord_matches i, rfl, payload_eq_nil, (operands_encodeWord i).symm⟩

/-- Settles O2: a word that matches a row is the word of what is assembled from it. -/
theorem encodeOfDecodeIsIdentity : Obligations.EncodeOfDecodeIsIdentity := by
  intro p w payload i h
  obtain ⟨op, hmatch, rfl, hpayload, rfl⟩ := decode_eq_ok_iff.mp h
  have hword := (matches_iff_encodeWord_operands op w payload).mp hmatch
  exact ⟨port_of_decode h, by rw [encode, hword, payload_operands hpayload]⟩

/-- Settles O5: the decoder evaluates on closed words. -/
theorem wordsOfTheSpecDecode : Obligations.WordsOfTheSpecDecode := by
  unfold Obligations.WordsOfTheSpecDecode
  decide

end Sys2Proof.Machine
end

section
/-! SUPPORT. Transactions that are no instruction of their port: words of no row, and payloads on commands that carry
none (spec/30_encoding.md R107, R108, spec/60_exceptions.md R281). -/

namespace Sys2Proof.Machine

/-! ### Illegal words -/

/-- A word that matches no row of the port is answered ILLEGAL. -/
theorem runTxn_of_no_row {p : Port} {x : Txn} (h : ∀ op : Opcode, op.port = p → x.word &&& op.mask ≠ op.matchWord)
    (s : State) : runTxn p x s = .next (fail p .illegal s) := by
  unfold runTxn decode
  cases Opcode.ofCode (fieldOPC x.word) with
  | none => rfl
  | some op =>
    by_cases hmatch : x.word &&& op.mask = op.matchWord
    · have hport : p ≠ op.port := fun hp => h op hp.symm hmatch
      simp [hmatch, hport, reject]
    · simp [hmatch, reject]

theorem opcode_mem_all (op : Opcode) : op ∈ Opcode.all := by cases op <;> decide

/-- The unassigned opcode values are the ones missing in the table. -/
theorem unassigned_iff (c : Byte) :
    (∀ op : Opcode, op.code ≠ c) ↔ c.toNat ∉ Opcode.all.map fun op => op.code.toNat := by
  rw [List.mem_map]
  constructor
  · rintro h ⟨op, -, hop⟩
    exact h op (BitVec.eq_of_toNat_eq hop)
  · rintro h op rfl
    exact h ⟨op, opcode_mem_all op, rfl⟩

/-- Settles O4: the decoder looks up one row and checks its bits and its port; the table of R105 leaves R107's list. -/
theorem illegalWordsFailIllegal : Obligations.IllegalWordsFailIllegal := by
  refine ⟨fun p x s h => runTxn_of_no_row h s, fun c => ?_⟩
  rw [unassigned_iff]
  simp [Opcode.all, Opcode.code]
  omega

/-! ### Payloads on commands that carry none -/

section Stray
variable {i : Instr} (htakes : i.opcode.takesPayload = false)
include htakes

/-- The commands without a payload that need an initialized buffer (R151). -/
theorem needsInit_iff :
    needsInit i = true ↔
      i = .rbReset ∨ (∃ count, i = .rbPoll count) ∨ i = .rbPeek ∨ i = .rbLength ∨ i = .decTick := by
  cases i with
  | rbPush => cases htakes
  | _ => simp [needsInit]

theorem port_eq_command : i.port = .command := by
  cases i with
  | rbPush => cases htakes
  | _ => rfl

/-- A stray payload is answered INVALID, or UNINIT by a command that needs the buffer. -/
theorem runTxn_stray {payload : List Byte} (hpayload : payload ≠ []) (s : State) :
    runTxn .command ⟨encodeWord i, payload⟩ s = .next (reject .command (.strayPayload i) s) := by
  have hd := decode_stray htakes hpayload
  rw [port_eq_command htakes] at hd
  simp [runTxn, hd]

end Stray

/-- RB_LENGTH alone answers UNINIT with a value (R147). -/
theorem uninitValue_eq (i : Instr) : uninitValue i = if i = .rbLength then 0xFFFFFFFF else 0 := by
  cases i <;> simp [uninitValue, Config.lenFail]

/-- Settles O6: the decoder refuses the payload, and the answer depends on the command and the buffer alone. -/
theorem strayPayloadFails : Obligations.StrayPayloadFails := by
  intro i payload s htakes hpayload
  rw [← needsInit_iff htakes, runTxn_stray htakes hpayload, ← uninitValue_eq]
  constructor
  · rintro ⟨hinit, hneeds⟩
    simp [reject, hinit, hneeds]
  · rintro (hinit | hneeds)
    · simp [reject, hinit]
    · simp [reject, hneeds]

end Sys2Proof.Machine
end

section
/-! SUPPORT. Transactions and responses as bytes, and read back (spec/30_encoding.md R102, R108, R110). -/

namespace Sys2Proof.Machine

/-! ### Byte order (R73) -/

@[simp] theorem length_toLE (n v : Nat) : (toLE n v).length = n := by
  induction n generalizing v with
  | zero => rfl
  | succ n ih => simp [toLE, ih]

/-- The low bytes of a value read back as the value modulo their range. -/
theorem ofLE_toLE (n v : Nat) : ofLE (toLE n v) = v % 256 ^ n := by
  induction n generalizing v with
  | zero => simp [toLE, ofLE, Nat.mod_one]
  | succ n ih =>
    calc ofLE (toLE (n + 1) v)
      _ = v % 256 + 256 * (v / 256 % 256 ^ n) := by simp [toLE, ofLE, ih]
      _ = v % 256 ^ (n + 1) := by rw [pow_succ', Nat.mod_mul]

/-- `n` bytes hold a value of `8 * n` bits. -/
theorem ofLE_toLE_toNat (n : Nat) (v : BitVec (8 * n)) : ofLE (toLE n v.toNat) = v.toNat := by
  rw [ofLE_toLE, Nat.mod_eq_of_lt]
  exact v.isLt.trans_eq (Nat.pow_mul 2 8 n)

/-! ### Transactions (R102) -/

/-- How many payload bytes a command implies does not depend on the payload it has. -/
theorem payloadBytes_operands (es : BitVec 16) (op : Opcode) (w : CmdWord) (a b : List Byte) :
    (operands op w a).payloadBytes es = (operands op w b).payloadBytes es := by cases op <;> rfl

/-- The word of an instruction implies its number of payload bytes (R108). -/
theorem impliedPayloadBytes_encodeWord (es : BitVec 16) (i : Instr) :
    impliedPayloadBytes es (encodeWord i) = i.payloadBytes es := by
  calc impliedPayloadBytes es (encodeWord i)
    _ = (operands i.opcode (encodeWord i) []).payloadBytes es := by
      simp [impliedPayloadBytes, fieldOPC_of_matches (encodeWord_matches i)]
    _ = (operands i.opcode (encodeWord i) i.payload).payloadBytes es := payloadBytes_operands ..
    _ = i.payloadBytes es := by rw [operands_encodeWord]

/-- The first transaction of a stream whose payload has the length its word implies. -/
theorem readTxn_bytes_append {es : BitVec 16} {x : Txn} (h : x.payload.length = impliedPayloadBytes es x.word)
    (rest : List Byte) : readTxn es (x.bytes ++ rest) = some (x, rest) := by
  have htake : (x.bytes ++ rest).take 8 = toLE 8 x.word.toNat := by simp [Txn.bytes]
  have hdrop : (x.bytes ++ rest).drop 8 = x.payload ++ rest := by simp [Txn.bytes]
  have hword : BitVec.ofNat 64 (ofLE (toLE 8 x.word.toNat)) = x.word := by
    rw [ofLE_toLE_toNat 8 x.word, BitVec.ofNat_toNat, BitVec.setWidth_eq]
  have hlength : ¬ (x.bytes ++ rest).length < 8 := by simp [Txn.bytes]
  simp only [readTxn, hlength, htake, hdrop, hword, ← h]
  simp

/-- Settles O3: the word comes back from its eight bytes, and it implies the length of the payload. -/
theorem transactionReadBackFromBytes : Obligations.TransactionReadBackFromBytes := by
  intro es i rest hwf
  apply readTxn_bytes_append
  rw [encode, impliedPayloadBytes_encodeWord]
  exact beq_iff_eq.mp hwf

/-! ### Responses (R110, R280) -/

/-- The statuses of R280, in the order of their codes. -/
def statuses : List Status := [.ok, .invalid, .overflow, .underrun, .empty, .uninit, .illegal]

theorem mem_statuses (a : Status) : a ∈ statuses := by cases a <;> decide

theorem map_code_statuses : statuses.map Status.code = [0, 1, 2, 3, 4, 5, 6] := by decide

/-- No two statuses share a code. -/
theorem Status.code_injective : Function.Injective Status.code := by
  have hnodup : (statuses.map Status.code).Nodup := by rw [map_code_statuses]; decide
  exact fun a b h => List.inj_on_of_nodup_map hnodup (mem_statuses a) (mem_statuses b) h

/-- Settles O53: the parts of a response lie at fixed places, and four bytes hold the value. -/
theorem responseReadBackFromBytes : Obligations.ResponseReadBackFromBytes := by
  refine ⟨fun r => ⟨rfl, ?_, ?_⟩, fun a b h => Status.code_injective h, map_code_statuses⟩
  · simp [Response.bytes]
  · simp [Response.bytes, ofLE_toLE_toNat 4 r.value]

end Sys2Proof.Machine
end

section
/-! SUPPORT. The answers of the ring-buffer commands by the checks they make (spec/40_ringbuffer.md R141 to R147). -/

namespace Sys2Proof.Machine

/-! ### Words -/

/-- A command whose word has no fields but OPC, X and Y. -/
theorem encodedAs_of_encodeWord {i : Instr} {x : BitVec 16} {y : Word} (h : encodeWord i = wordW i.opcode x y) :
    EncodedAs i i.port i.opcode.code x y := by
  simp [EncodedAs, h]

/-! ### The length in elements -/

section Regs
variable {p : Params} {r : RbRegs} {m : Memory} (hi : RbInv p r m) (init : r.init = true)
include hi init

/-- The full flag says that the length is the capacity (R38 (e)). -/
theorem full_iff_length_eq_cap : r.full = true ↔ r.length = r.cap.toNat := by
  cases hfull : r.full with
  | true => simp [length_of_full hi init hfull]
  | false => simp [(length_lt_of_not_full hi init hfull).ne]

theorem length_le_cap : r.length ≤ r.cap.toNat := by
  cases hfull : r.full with
  | true => exact (length_of_full hi init hfull).le
  | false => exact (length_lt_of_not_full hi init hfull).le

theorem length_pushed (legal : p.wf) {count : Nat} (nonzero : 0 < count) (free : count ≤ r.free) :
    (r.pushed (count * r.es.toNat)).length = r.length + count := by
  have hes := hi.esLegal init
  have hocc := occ_pushed hi init legal (Nat.mul_pos nonzero hes) (occ_add_count_mul_es_le hi init nonzero free)
  calc (r.pushed (count * r.es.toNat)).length = (r.occ + count * r.es.toNat) / r.es.toNat := by rw [← hocc]; rfl
    _ = r.length + count := Nat.add_mul_div_right _ _ hes

theorem length_consumed (legal : p.wf) {count : Nat} (nonzero : 0 < count) (held : count ≤ r.length) :
    (r.consumed (count * r.es.toNat)).length = r.length - count := by
  have hes := hi.esLegal init
  have hbytes : count * r.es.toNat ≤ r.occ := length_mul_es hi init ▸ Nat.mul_le_mul_right _ held
  have hocc := occ_consumed hi init legal (Nat.mul_pos nonzero hes) hbytes
  calc (r.consumed (count * r.es.toNat)).length = (r.occ - count * r.es.toNat) / r.es.toNat := by rw [← hocc]; rfl
    _ = r.length - count := by rw [Nat.mul_comm, Nat.sub_mul_div]; rfl

end Regs

/-! ### The geometry and the empty buffer -/

/-- The ring registers of an empty initialized buffer with both indices at 0 (R141, R146). -/
def RbRegs.empty (es : BitVec 16) (cap : Word) : RbRegs := ⟨0, 0, false, true, cap, es⟩

@[simp] theorem occ_empty (es : BitVec 16) (cap : Word) : (RbRegs.empty es cap).occ = 0 := by
  simp [RbRegs.empty, RbRegs.occ]

@[simp] theorem length_empty (es : BitVec 16) (cap : Word) : (RbRegs.empty es cap).length = 0 := by
  simp [RbRegs.length]

theorem contents_of_occ_eq_zero {s : State} (h : s.rb.occ = 0) : contents s = [] := by
  simp [contents, h, copyOut, memRead, readRun]

/-- The geometries RB_INIT accepts (R141). -/
structure LegalGeometry (es : BitVec 16) (cap : Word) (p : Params) : Prop where
  es_ne_zero : es ≠ 0
  two_le_cap : 2 ≤ cap.toNat
  fits : cap.toNat * es.toNat ≤ p.rbMaxBytes

theorem RbInv.legalGeometry {p : Params} {r : RbRegs} {m : Memory} (hi : RbInv p r m) (init : r.init = true) :
    LegalGeometry r.es r.cap p := by
  have := hi.esLegal init
  exact ⟨by bv_omega, hi.capLegal init, hi.fits init⟩

/-! ### RB_INIT and RB_RESET -/

theorem execRbInit_of_illegal {es : BitVec 16} {cap : Word} {s : State} (h : ¬ LegalGeometry es cap s.params) :
    execRbInit es cap s = .next (fail .command .invalid s) := by
  unfold execRbInit
  split_ifs with hlegal hfits
  · rfl
  · rfl
  · obtain ⟨hes, hcap⟩ := not_or.mp hlegal
    exact absurd ⟨hes, Nat.le_of_not_lt hcap, Nat.le_of_not_lt hfits⟩ h

/-- The state of an accepted RB_INIT before its answer. -/
def State.initialized (es : BitVec 16) (cap : Word) (s : State) : State :=
  { s with mem := s.mem.write 0 (List.replicate (cap.toNat * es.toNat) 0), rb := .empty es cap }

theorem execRbInit_of_legal {es : BitVec 16} {cap : Word} {s : State} (h : LegalGeometry es cap s.params) :
    execRbInit es cap s = .next (respond .command .ok 0 [] (s.initialized es cap)) := by
  obtain ⟨hes, hcap, hfits⟩ := h
  unfold execRbInit
  rw [if_neg (not_or.mpr ⟨hes, by omega⟩), if_neg (by omega), memWrite_total (.inr (by simpa using hfits))]
  rfl

theorem read_initialized (es : BitVec 16) (cap : Word) (s : State) (a : Nat) :
    (s.initialized es cap).mem.read a = if a < cap.toNat * es.toNat then some 0 else s.mem.read a := by
  rw [State.initialized, read_write]
  by_cases h : a < cap.toNat * es.toNat <;> simp [h]

theorem rbInv_initialized {es : BitVec 16} {cap : Word} {s : State} (h : LegalGeometry es cap s.params) :
    RbInv s.params (s.initialized es cap).rb (s.initialized es cap).mem := by
  obtain ⟨hes, hcap, hfits⟩ := h
  exact rbInv_fresh hes hcap hfits fun a ha => by simp [read_initialized, ha]

theorem execRbReset_of_uninit {s : State} (init : s.rb.init = false) :
    execRbReset s = .next (fail .command .uninit s) := if_pos init

theorem execRbReset_of_init {s : State} (init : s.rb.init = true) :
    execRbReset s = .next (respond .command .ok 0 [] { s with rb := .empty s.rb.es s.rb.cap }) := by
  simp [execRbReset, RbRegs.empty, init]

/-! ### The transfers

The checks of RB_PUSH, RB_POLL and RB_PEEK read the operands and the ring registers alone. -/

section Refused
variable {count : Word} {payload : List Byte} {s : State}

theorem execRbPush_of_uninit (init : s.rb.init = false) :
    execRbPush count payload s = .next (fail .producer .uninit s) := if_pos init

theorem execRbPush_of_malformed (init : s.rb.init = true)
    (malformed : count = 0 ∨ payload.length ≠ count.toNat * s.rb.es.toNat) :
    execRbPush count payload s = .next (fail .producer .invalid s) := by
  unfold execRbPush
  rw [if_neg (by simp [init])]
  split_ifs with hcount hlen
  · rfl
  · rfl
  · exact absurd malformed (not_or.mpr ⟨hcount, hlen⟩)
  · exact absurd malformed (not_or.mpr ⟨hcount, hlen⟩)

theorem execRbPush_of_overflow (init : s.rb.init = true) (nonzero : count ≠ 0)
    (whole : payload.length = count.toNat * s.rb.es.toNat) (overflow : s.rb.free < count.toNat) :
    execRbPush count payload s = .next (fail .producer .overflow s) := by
  unfold execRbPush
  rw [if_neg (by simp [init]), if_neg nonzero, if_neg (not_not.mpr whole), if_pos overflow]

theorem execRbPoll_of_uninit (init : s.rb.init = false) :
    execRbPoll count s = .next (fail .command .uninit s) := if_pos init

theorem execRbPoll_of_zero (init : s.rb.init = true) (zero : count = 0) :
    execRbPoll count s = .next (fail .command .invalid s) := by
  unfold execRbPoll
  rw [if_neg (by simp [init]), if_pos zero]

theorem execRbPoll_of_empty (init : s.rb.init = true) (nonzero : count ≠ 0) (empty : s.rb.length = 0) :
    execRbPoll count s = .next (fail .command .empty s) := by
  unfold execRbPoll
  rw [if_neg (by simp [init]), if_neg nonzero, if_pos empty]

theorem execRbPoll_of_underrun (init : s.rb.init = true) (nonempty : s.rb.length ≠ 0)
    (underrun : s.rb.length < count.toNat) : execRbPoll count s = .next (fail .command .underrun s) := by
  have nonzero : count ≠ 0 := by bv_omega
  unfold execRbPoll
  rw [if_neg (by simp [init]), if_neg nonzero, if_neg nonempty, if_pos underrun]

theorem execRbPeek_of_uninit (init : s.rb.init = false) : execRbPeek s = .next (fail .command .uninit s) :=
  if_pos init

theorem execRbPeek_of_empty (init : s.rb.init = true) (empty : s.rb.length = 0) :
    execRbPeek s = .next (fail .command .empty s) := by
  unfold execRbPeek
  rw [if_neg (by simp [init]), if_pos empty]

end Refused

/-- A push fits, or every state with these ring registers refuses it alike. -/
theorem execRbPush_refused_or_fits (count : Word) (payload : List Byte) (r : RbRegs) :
    (∃ st, ∀ s : State, s.rb = r → execRbPush count payload s = .next (fail .producer st s)) ∨
    (r.init = true ∧ count ≠ 0 ∧ payload.length = count.toNat * r.es.toNat ∧ count.toNat ≤ r.free) := by
  cases init : r.init with
  | false => exact .inl ⟨.uninit, by rintro s rfl; exact execRbPush_of_uninit init⟩
  | true =>
    by_cases malformed : count = 0 ∨ payload.length ≠ count.toNat * r.es.toNat
    · exact .inl ⟨.invalid, by rintro s rfl; exact execRbPush_of_malformed init malformed⟩
    · obtain ⟨nonzero, whole⟩ := not_or.mp malformed
      by_cases free : count.toNat ≤ r.free
      · exact .inr ⟨rfl, nonzero, not_not.mp whole, free⟩
      · exact .inl ⟨.overflow, by
          rintro s rfl; exact execRbPush_of_overflow init nonzero (not_not.mp whole) (Nat.lt_of_not_le free)⟩

/-- A poll finds its elements, or every state with these ring registers refuses it alike. -/
theorem execRbPoll_refused_or_held (count : Word) (r : RbRegs) :
    (∃ st, ∀ s : State, s.rb = r → execRbPoll count s = .next (fail .command st s)) ∨
    (r.init = true ∧ count ≠ 0 ∧ count.toNat ≤ r.length) := by
  cases init : r.init with
  | false => exact .inl ⟨.uninit, by rintro s rfl; exact execRbPoll_of_uninit init⟩
  | true =>
    by_cases nonzero : count = 0
    · exact .inl ⟨.invalid, by rintro s rfl; exact execRbPoll_of_zero init nonzero⟩
    by_cases empty : r.length = 0
    · exact .inl ⟨.empty, by rintro s rfl; exact execRbPoll_of_empty init nonzero empty⟩
    by_cases held : count.toNat ≤ r.length
    · exact .inr ⟨rfl, nonzero, held⟩
    · exact .inl ⟨.underrun, by rintro s rfl; exact execRbPoll_of_underrun init empty (Nat.lt_of_not_le held)⟩

/-- A peek finds an element, or every state with these ring registers refuses it alike. -/
theorem execRbPeek_refused_or_holds (r : RbRegs) :
    (∃ st, ∀ s : State, s.rb = r → execRbPeek s = .next (fail .command st s)) ∨ (r.init = true ∧ r.length ≠ 0) := by
  cases init : r.init with
  | false => exact .inl ⟨.uninit, by rintro s rfl; exact execRbPeek_of_uninit init⟩
  | true =>
    by_cases empty : r.length = 0
    · exact .inl ⟨.empty, by rintro s rfl; exact execRbPeek_of_empty init empty⟩
    · exact .inr ⟨rfl, empty⟩

/-- `Inv.after_rbPush` in the terms of `RbRegs.pushed`. -/
theorem Inv.after_pushed {s u : State} {count : Nat} {payload : List Byte} (h : Inv s) (init : s.rb.init = true)
    (nonzero : 0 < count) (whole : payload.length = count * s.rb.es.toNat) (free : count ≤ s.rb.free)
    (stores : copyIn s payload = .ok u) : Inv { u with rb := s.rb.pushed payload.length } := by
  have hafter := h.after_rbPush init nonzero whole free stores
  rw [copyIn_frame stores] at hafter ⊢
  exact hafter

section Ring
variable {s : State} (hi : RbInv s.params s.rb s.mem) (init : s.rb.init = true)
include hi init

/-- A push that passes its checks stores its payload and moves the write index. -/
theorem execRbPush_of_fits {count : Word} {payload : List Byte} (nonzero : count ≠ 0)
    (whole : payload.length = count.toNat * s.rb.es.toNat) (free : count.toNat ≤ s.rb.free) :
    ∃ u, copyIn s payload = .ok u ∧ execRbPush count payload s =
      .next (respond .producer .ok 0 [] { u with rb := s.rb.pushed payload.length }) := by
  obtain ⟨u, stores⟩ := copyIn_total (hi.wrBelow init) (hi.fits init) (whole ▸ count_mul_es_le_of_free free)
  refine ⟨u, stores, ?_⟩
  unfold execRbPush
  rw [if_neg (by simp [init]), if_neg nonzero, if_neg (not_not.mpr whole), if_neg (by omega), stores,
    copyIn_frame stores]
  rfl

/-- A poll that passes its checks consumes its elements. -/
theorem execRbPoll_of_held {count : Word} (nonzero : count ≠ 0) (held : count.toNat ≤ s.rb.length) :
    ∃ out u, consume s (count.toNat * s.rb.es.toNat) = .ok (out, u) ∧
      execRbPoll count s = .next (respond .command .ok 0 out u) := by
  obtain ⟨⟨out, u⟩, takes⟩ := consume_in_ring_total hi init (count_mul_es_le_of_length hi init held)
  refine ⟨out, u, takes, ?_⟩
  have hcount : 0 < count.toNat := by bv_omega
  unfold execRbPoll
  rw [if_neg (by simp [init]), if_neg nonzero, if_neg (by omega), if_neg (by omega), takes]

/-- A peek at a buffer that holds an element reads it. -/
theorem execRbPeek_of_holds (nonempty : s.rb.length ≠ 0) :
    ∃ out, memRead s s.rb.rdIdx.toNat s.rb.es.toNat = .ok out ∧
      execRbPeek s = .next (respond .command .ok 0 out s) := by
  obtain ⟨out, reads⟩ := memRead_element_total hi init
  refine ⟨out, reads, ?_⟩
  unfold execRbPeek
  rw [if_neg (by simp [init]), if_neg nonempty, reads]

end Ring

theorem execRbLength_of_uninit {s : State} (init : s.rb.init = false) :
    execRbLength s = .next (respond .command .uninit Config.lenFail [] s) := if_pos init

theorem execRbLength_of_init {s : State} (init : s.rb.init = true) :
    execRbLength s = .next (respond .command .ok (BitVec.ofNat 32 s.rb.length) [] s) := by
  simp [execRbLength, init]

end Sys2Proof.Machine
end

section
/-! SUPPORT. The length through pushes and polls in any order (spec/40_ringbuffer.md R149 (a)). -/

namespace Sys2Proof.Machine

theorem execRbInit_accepted {es : BitVec 16} {cap : Word} {s t : State} (h : Accepted (.rbInit es cap) s t) :
    LegalGeometry es cap s.params ∧ t = respond .command .ok 0 [] (s.initialized es cap) := by
  obtain ⟨hexec, v, d, ok⟩ := h
  by_cases hlegal : LegalGeometry es cap s.params
  · cases (execRbInit_of_legal hlegal).symm.trans hexec
    exact ⟨hlegal, rfl⟩
  · cases (execRbInit_of_illegal hlegal).symm.trans hexec
    simp [responses, Instr.port, Instr.opcode, Opcode.port] at ok

/-- The registers of an initialized buffer that meet the invariant beside some storage: what the length depends on. -/
structure RegsLegal (p : Params) (r : RbRegs) : Prop where
  params : p.wf
  init : r.init = true
  ring : ∃ m, RbInv p r m

theorem RegsLegal.after_push {p : Params} {r : RbRegs} (h : RegsLegal p r) {count : Nat} (nonzero : 0 < count)
    (free : count ≤ r.free) : RegsLegal p (r.pushed (count * r.es.toNat)) := by
  obtain ⟨m, hi⟩ := h.ring
  exact ⟨h.params, h.init, m,
    rbInv_push hi h.init h.params nonzero free (Nat.dvd_mul_left _ _) (hi.written h.init)⟩

theorem RegsLegal.after_consume {p : Params} {r : RbRegs} (h : RegsLegal p r) (count : Nat) :
    RegsLegal p (r.consumed (count * r.es.toNat)) := by
  obtain ⟨m, hi⟩ := h.ring
  exact ⟨h.params, h.init, m, rbInv_consume hi h.init h.params (Nat.dvd_mul_left _ _)⟩

/-- RB_PEEK and RB_LENGTH write no state. -/
theorem Effect.eq_of_reads {i : Instr} {s u : State} (he : Effect s i u) (reads : i = .rbPeek ∨ i = .rbLength) :
    u = s := by
  rcases reads with rfl | rfl
  · cases he; rfl
  · cases he; rfl

/-- What an accepted command adds to the length and takes from it is what it pushes and polls. -/
theorem Accepted.length_balance {i : Instr} {s t : State} (h : Accepted i s t) (uses : usesBuffer i = true)
    (legal : RegsLegal s.params s.rb) :
    RegsLegal t.params t.rb ∧ t.rb.length + polledBy i = s.rb.length + pushedBy i := by
  obtain ⟨hexec, v, d, ok⟩ := h
  obtain ⟨m, hi⟩ := legal.ring
  rw [exec_params hexec]
  cases i with
  | rbPush count payload =>
    obtain ⟨hcount, whole, free, u, -, rfl⟩ := execRbPush_ok hexec ok
    have nonzero : 0 < count.toNat := by bv_omega
    rw [respond_rb, whole]
    exact ⟨legal.after_push nonzero free, length_pushed hi legal.init legal.params nonzero free⟩
  | rbPoll count =>
    obtain ⟨hcount, held, u, takes, rfl⟩ := execRbPoll_ok hexec ok
    obtain ⟨-, rfl⟩ := consume_ok takes
    have hlength := length_consumed hi legal.init legal.params (by bv_omega) held
    refine ⟨legal.after_consume count.toNat, ?_⟩
    show (s.rb.consumed (count.toNat * s.rb.es.toNat)).length + count.toNat = _
    rw [hlength, Nat.sub_add_cancel held]
    rfl
  | rbPeek =>
    obtain ⟨u, he, _, _, rfl⟩ := exec_effect hexec
    rw [he.eq_of_reads (.inl rfl)]
    exact ⟨legal, rfl⟩
  | rbLength =>
    obtain ⟨u, he, _, _, rfl⟩ := exec_effect hexec
    rw [he.eq_of_reads (.inr rfl)]
    exact ⟨legal, rfl⟩
  | _ => cases uses

theorem AcceptedRun.length_balance {is : List Instr} {s t : State} (run : AcceptedRun is s t)
    (uses : ∀ i ∈ is, usesBuffer i = true) (legal : RegsLegal s.params s.rb) :
    t.rb.length + (is.map polledBy).sum = s.rb.length + (is.map pushedBy).sum := by
  induction run with
  | nil => rfl
  | cons i is s t u first rest ih =>
    obtain ⟨hi, his⟩ := List.forall_mem_cons.mp uses
    obtain ⟨legal, hfirst⟩ := first.length_balance hi legal
    have hrest := ih his legal
    simp only [List.map_cons, List.sum_cons]
    omega

/-- Settles O22: the buffer is empty after RB_INIT, and every accepted command balances its books. -/
theorem pushesLessPollsIsLength : Obligations.PushesLessPollsIsLength := by
  intro es cap s s0 t is h hinit uses run
  obtain ⟨hlegal, rfl⟩ := execRbInit_accepted hinit
  have legal : RegsLegal s.params (s.initialized es cap).rb := ⟨h.paramsLegal, rfl, _, rbInv_initialized hlegal⟩
  have hlength : (s.initialized es cap).rb.length = 0 := length_empty es cap
  have hrun := run.length_balance uses (by rw [respond_params, respond_rb]; exact legal)
  rw [respond_rb, hlength, Nat.zero_add] at hrun
  exact hrun

end Sys2Proof.Machine
end

section
/-! SUPPORT. A buffer that was reset and one that was initialized afresh answer alike (spec/40_ringbuffer.md R146,
R149 (c)). -/

namespace Sys2Proof.Machine

/-- `r` and `f` hold the same queue in the same ring registers and have given the same responses. -/
structure ActAlike (r f : State) : Prop where
  invLeft : Inv r
  invRight : Inv f
  init : f.rb.init = true
  rb : r.rb = f.rb
  queue : contents r = contents f
  cmdOut : r.cmdOut = f.cmdOut
  prodOut : r.prodOut = f.prodOut

/-- Both results are next states, and these act alike. -/
def BothNext (a b : Result) : Prop := ∃ r f, a = .next r ∧ b = .next f ∧ ActAlike r f

theorem ActAlike.after_answer {r f : State} (h : ActAlike r f) (p : Port) (st : Status) (v : Word) (d : List Byte) :
    ActAlike (respond p st v d r) (respond p st v d f) where
  invLeft := h.invLeft.after_answer (answered_respond ..)
  invRight := h.invRight.after_answer (answered_respond ..)
  init := by simpa using h.init
  rb := by simpa using h.rb
  queue := by simpa using h.queue
  cmdOut := by cases p <;> simp [h.cmdOut, respond]
  prodOut := by cases p <;> simp [h.prodOut, respond]

section Alike
variable {r f : State} (h : ActAlike r f)
include h

/-- The same answer of the same port without a write. -/
theorem ActAlike.both_next {a b : Result} (p : Port) (st : Status) (v : Word) (d : List Byte)
    (ha : a = .next (respond p st v d r)) (hb : b = .next (respond p st v d f)) : BothNext a b :=
  ⟨_, _, ha, hb, h.after_answer p st v d⟩

theorem ActAlike.after_stores {u v : State} {count : Nat} {payload : List Byte} (nonzero : 0 < count)
    (whole : payload.length = count * f.rb.es.toNat) (free : count ≤ f.rb.free)
    (storesLeft : copyIn r payload = .ok u) (storesRight : copyIn f payload = .ok v) :
    ActAlike { u with rb := r.rb.pushed payload.length } { v with rb := f.rb.pushed payload.length } := by
  have init := h.rb ▸ h.init
  have wholeLeft := h.rb ▸ whole
  have freeLeft := h.rb ▸ free
  obtain ⟨-, -, -, hucmd, huprod⟩ := copyIn_samePorts storesLeft
  obtain ⟨-, -, -, hvcmd, hvprod⟩ := copyIn_samePorts storesRight
  exact
    { invLeft := h.invLeft.after_pushed init nonzero wholeLeft freeLeft storesLeft
      invRight := h.invRight.after_pushed h.init nonzero whole free storesRight
      init := h.init
      rb := congrArg (RbRegs.pushed · payload.length) h.rb
      queue := by
        rw [contents_push h.invLeft init nonzero wholeLeft freeLeft storesLeft,
          contents_push h.invRight h.init nonzero whole free storesRight, h.queue]
      cmdOut := hucmd.trans (h.cmdOut.trans hvcmd.symm)
      prodOut := huprod.trans (h.prodOut.trans hvprod.symm) }

theorem ActAlike.after_takes {u v : State} {n : Nat} {outLeft outRight : List Byte} (nonzero : 0 < n)
    (whole : f.rb.es.toNat ∣ n) (held : n ≤ f.rb.occ) (takesLeft : consume r n = .ok (outLeft, u))
    (takesRight : consume f n = .ok (outRight, v)) : outLeft = outRight ∧ ActAlike u v := by
  have init := h.rb ▸ h.init
  have wholeLeft := h.rb ▸ whole
  obtain ⟨hqueueLeft, hlenLeft⟩ := contents_consume h.invLeft init nonzero wholeLeft (h.rb ▸ held) takesLeft
  obtain ⟨hqueueRight, hlenRight⟩ := contents_consume h.invRight h.init nonzero whole held takesRight
  obtain ⟨hout, hqueue⟩ := List.append_inj (hqueueLeft.trans (h.queue.trans hqueueRight.symm))
    (hlenLeft.trans hlenRight.symm)
  have hinvLeft := h.invLeft.after_consume init wholeLeft takesLeft
  have hinvRight := h.invRight.after_consume h.init whole takesRight
  obtain ⟨-, rfl⟩ := consume_ok takesLeft
  obtain ⟨-, rfl⟩ := consume_ok takesRight
  exact ⟨hout,
    { invLeft := hinvLeft
      invRight := hinvRight
      init := h.init
      rb := congrArg (RbRegs.consumed · n) h.rb
      queue := hqueue
      cmdOut := h.cmdOut
      prodOut := h.prodOut }⟩

/-! ### The four commands -/

theorem ActAlike.rbPush (count : Word) (payload : List Byte) :
    BothNext (execRbPush count payload r) (execRbPush count payload f) := by
  rcases execRbPush_refused_or_fits count payload f.rb with ⟨st, hrefuses⟩ | ⟨init, nonzero, whole, free⟩
  · exact h.both_next .producer st 0 [] (hrefuses r h.rb) (hrefuses f rfl)
  · obtain ⟨u, storesLeft, hleft⟩ := execRbPush_of_fits h.invLeft.ring (h.rb ▸ init) nonzero (h.rb ▸ whole)
      (h.rb ▸ free)
    obtain ⟨v, storesRight, hright⟩ := execRbPush_of_fits h.invRight.ring init nonzero whole free
    have hafter := h.after_stores (by bv_omega) whole free storesLeft storesRight
    exact hafter.both_next .producer .ok 0 [] hleft hright

theorem ActAlike.rbPoll (count : Word) : BothNext (execRbPoll count r) (execRbPoll count f) := by
  rcases execRbPoll_refused_or_held count f.rb with ⟨st, hrefuses⟩ | ⟨init, nonzero, held⟩
  · exact h.both_next .command st 0 [] (hrefuses r h.rb) (hrefuses f rfl)
  · have hi := h.invRight.ring
    obtain ⟨outLeft, u, takesLeft, hleft⟩ := execRbPoll_of_held h.invLeft.ring (h.rb ▸ init) nonzero (h.rb ▸ held)
    obtain ⟨outRight, v, takesRight, hright⟩ := execRbPoll_of_held hi init nonzero held
    rw [h.rb] at takesLeft
    obtain ⟨rfl, hafter⟩ := h.after_takes (Nat.mul_pos (by bv_omega) (hi.esLegal init)) (Nat.dvd_mul_left _ _)
      (length_mul_es hi init ▸ Nat.mul_le_mul_right _ held) takesLeft takesRight
    exact hafter.both_next .command .ok 0 outLeft hleft hright

theorem ActAlike.rbPeek : BothNext (execRbPeek r) (execRbPeek f) := by
  rcases execRbPeek_refused_or_holds f.rb with ⟨st, hrefuses⟩ | ⟨init, nonempty⟩
  · exact h.both_next .command st 0 [] (hrefuses r h.rb) (hrefuses f rfl)
  · have initLeft := h.rb ▸ init
    have nonemptyLeft := h.rb ▸ nonempty
    obtain ⟨outLeft, readsLeft, hleft⟩ := execRbPeek_of_holds h.invLeft.ring initLeft nonemptyLeft
    obtain ⟨outRight, readsRight, hright⟩ := execRbPeek_of_holds h.invRight.ring init nonempty
    have hout : outLeft = outRight := by
      rw [contents_front h.invLeft.ring initLeft nonemptyLeft readsLeft,
        contents_front h.invRight.ring init nonempty readsRight, h.rb, h.queue]
    exact h.both_next .command .ok 0 outLeft hleft (hout ▸ hright)

theorem ActAlike.rbLength : BothNext (execRbLength r) (execRbLength f) :=
  h.both_next .command .ok _ [] (h.rb ▸ execRbLength_of_init (h.rb ▸ h.init)) (execRbLength_of_init h.init)

theorem ActAlike.command {i : Instr} (uses : usesBuffer i = true) : BothNext (exec i r) (exec i f) := by
  cases i with
  | rbPush count payload => exact h.rbPush count payload
  | rbPoll count => exact h.rbPoll count
  | rbPeek => exact h.rbPeek
  | rbLength => exact h.rbLength
  | _ => cases uses

end Alike

theorem ActAlike.commands {is : List Instr} {r f : State} (h : ActAlike r f) (uses : ∀ i ∈ is, usesBuffer i = true) :
    BothNext (execAll is r) (execAll is f) := by
  induction is generalizing r f with
  | nil => exact ⟨r, f, rfl, rfl, h⟩
  | cons i is ih =>
    obtain ⟨hi, his⟩ := List.forall_mem_cons.mp uses
    obtain ⟨r', f', hr, hf, h'⟩ := h.command hi
    simp only [execAll, hr, hf]
    exact ih h' his

/-! ### The two empty buffers -/

theorem Inv.after_reset {s : State} (h : Inv s) (init : s.rb.init = true) :
    Inv { s with rb := .empty s.rb.es s.rb.cap } := by
  have hreset := rbInv_reset h.ring init
  rw [init] at hreset
  exact { h with ring := hreset, tickOnBytes := fun busy => ⟨rfl, (h.tickOnBytes busy).2⟩ }

/-- RB_INIT of the geometry the buffer has: a tick in progress stays on a byte buffer. -/
theorem Inv.after_same_init {s : State} (h : Inv s) (init : s.rb.init = true) :
    Inv (s.initialized s.rb.es s.rb.cap) := by
  have hlegal := h.ring.legalGeometry init
  have hwrite := memWrite_total (s := s) (off := 0) (bs := List.replicate (s.rb.cap.toNat * s.rb.es.toNat) 0)
    (.inr (by simpa using hlegal.fits))
  obtain ⟨hwf, hinside⟩ := memWrite_keeps hwrite h.memCanonical h.memInside
  exact
    { h with
      memCanonical := hwf
      memInside := hinside
      ring := rbInv_initialized hlegal
      tickOnBytes := fun busy => ⟨rfl, (h.tickOnBytes busy).2⟩ }

/-- Settles O23: both buffers are empty with the same registers, and from there every command keeps them alike. -/
theorem resetActsAsFreshInit : Obligations.ResetActsAsFreshInit := by
  intro s r f is h init hreset hinit uses
  cases (execRbReset_of_init init).symm.trans hreset
  cases (execRbInit_of_legal (h.ring.legalGeometry init)).symm.trans hinit
  have alike : ActAlike { s with rb := .empty s.rb.es s.rb.cap } (s.initialized s.rb.es s.rb.cap) :=
    { invLeft := h.after_reset init
      invRight := h.after_same_init init
      init := rfl
      rb := rfl
      queue := (contents_of_occ_eq_zero (occ_empty ..)).trans (contents_of_occ_eq_zero (occ_empty ..)).symm
      cmdOut := rfl
      prodOut := rfl }
  obtain ⟨r', f', hr, hf, h'⟩ := (alike.after_answer .command .ok 0 []).commands uses
  exact ⟨r', f', hr, hf, h'.cmdOut, h'.prodOut, h'.rb⟩

end Sys2Proof.Machine
end

section
/-! SUPPORT. The result, the failures and the frame of each ring-buffer command (spec/40_ringbuffer.md R141 to R147,
R151). -/

namespace Sys2Proof.Machine

/-- Settles O15: legal geometries are initialized, the others refused. -/
theorem rbInitResult : Obligations.RbInitResult := by
  intro es cap s
  refine ⟨encodedAs_of_encodeWord rfl, fun illegal => execRbInit_of_illegal ?_, fun hes hcap hfits => ?_⟩
  · rintro ⟨hes, hcap, hfits⟩
    rcases illegal with rfl | hlt | hlt
    · exact hes rfl
    · omega
    · omega
  · refine ⟨_, execRbInit_of_legal ⟨hes, hcap, hfits⟩, rfl, fun a ha => ?_, fun a ha => ?_⟩
    · rw [respond_mem, read_initialized, if_pos ha]
    · rw [respond_mem, read_initialized, if_neg (by omega)]

/-- Settles O16: the checks in their order, then CopyIn byte by byte; the buffer is full when its length is its
capacity. -/
theorem rbPushResult : Obligations.RbPushResult := by
  intro count payload s h
  have hi := h.ring
  refine ⟨encodedAs_of_encodeWord rfl, execRbPush_of_uninit, fun init => ⟨execRbPush_of_malformed init, ?_⟩⟩
  intro nonzero whole
  have hcount : 0 < count.toNat := by bv_omega
  refine ⟨fun hover => execRbPush_of_overflow init nonzero whole (by rw [RbRegs.free]; omega), fun hfree => ?_⟩
  have free : count.toNat ≤ s.rb.free := Nat.le_sub_of_add_le' hfree
  obtain ⟨u, stores, hexec⟩ := execRbPush_of_fits hi init nonzero whole free
  obtain ⟨hframe, inside, outside⟩ := copyIn_ok (hi.wrBelow init) (whole ▸ count_mul_es_le_of_free free) stores
  have hafter := (h.after_pushed init hcount whole free stores).ring
  refine ⟨_, hexec, ?_, advance_toNat_of_ring hi init h.paramsLegal _ _, ?_, inside, outside⟩
  · rw [hframe]
    rfl
  · rw [respond_rb, full_iff_length_eq_cap hafter init, whole,
      length_pushed hi init h.paramsLegal hcount free]
    rfl

/-- Settles O17: the checks in their order, then CopyOut byte by byte. -/
theorem rbPollResult : Obligations.RbPollResult := by
  intro count s h
  have hi := h.ring
  refine ⟨encodedAs_of_encodeWord rfl, execRbPoll_of_uninit, fun init => ⟨execRbPoll_of_zero init,
    execRbPoll_of_empty init, fun nonempty => execRbPoll_of_underrun init nonempty.ne', fun nonzero held => ?_⟩⟩
  obtain ⟨out, u, takes, hexec⟩ := execRbPoll_of_held hi init nonzero held
  obtain ⟨hcopy, rfl⟩ := consume_ok takes
  obtain ⟨hlen, hbytes⟩ := copyOut_ok (hi.rdBelow init) (count_mul_es_le_of_length hi init held) hcopy
  exact ⟨_, out, hexec, rfl, advance_toNat_of_ring hi init h.paramsLegal _ _, hlen, hlen ▸ hbytes⟩

/-- Settles O18: the read is one run from the read index, the front of the contents. -/
theorem rbPeekResult : Obligations.RbPeekResult := by
  intro s h
  refine ⟨encodedAs_of_encodeWord rfl, execRbPeek_of_uninit, execRbPeek_of_empty, fun init nonempty => ?_⟩
  obtain ⟨out, reads, hexec⟩ := execRbPeek_of_holds h.ring init nonempty.ne'
  obtain ⟨-, hlen, hbytes⟩ := memRead_ok reads
  exact ⟨out, hexec, hlen, contents_front h.ring init nonempty.ne' reads, hlen ▸ hbytes⟩

/-- Settles O19: equal indices without the full flag are an empty buffer. -/
theorem rbResetResult : Obligations.RbResetResult := by
  intro s
  refine ⟨encodedAs_of_encodeWord rfl, execRbReset_of_uninit, fun init => ?_⟩
  exact ⟨_, execRbReset_of_init init, rfl, fun _ => rfl, length_empty .., contents_of_occ_eq_zero (occ_empty ..)⟩

/-- The capacity of an initialized buffer is below LEN_FAIL, as the storage is (R10). -/
theorem cap_lt_lenFail {s : State} (h : Inv s) (init : s.rb.init = true) : s.rb.cap.toNat < 2 ^ 32 - 1 := by
  have hcap : s.rb.cap.toNat ≤ s.rb.bytesInUse := Nat.le_mul_of_pos_right _ (h.ring.esLegal init)
  exact (hcap.trans (h.ring.fits init)).trans_lt h.paramsLegal.2

/-- Settles O20: the length is at most the capacity, which is below LEN_FAIL. -/
theorem rbLengthResult : Obligations.RbLengthResult := by
  intro s h
  refine ⟨encodedAs_of_encodeWord rfl, execRbLength_of_uninit, fun init => ?_⟩
  have hlt : s.rb.length < 2 ^ 32 - 1 := (length_le_cap h.ring init).trans_lt (cap_lt_lenFail h init)
  have hvalue : (BitVec.ofNat 32 s.rb.length).toNat = s.rb.length := by
    rw [BitVec.toNat_ofNat, Nat.mod_eq_of_lt (by omega)]
  refine ⟨_, execRbLength_of_init init, hvalue, fun hfail => ?_, fun full => ?_⟩
  · rw [← hvalue, hfail] at hlt
    exact absurd hlt (by decide)
  · exact BitVec.eq_of_toNat_eq (hvalue.trans (length_of_full h.ring init full))

/-- Settles O24: each of the six commands checks the initialized flag first, and RB_INIT alone writes it. -/
theorem uninitializedBufferRefusesItsCommands : Obligations.UninitializedBufferRefusesItsCommands := by
  refine ⟨fun s uninit => ⟨fun _ _ => execRbPush_of_uninit uninit, fun _ => execRbPoll_of_uninit uninit,
    execRbPeek_of_uninit uninit, execRbReset_of_uninit uninit, execRbLength_of_uninit uninit, if_pos uninit⟩,
    fun i s t hexec uninit init => ?_⟩
  obtain ⟨-, -, -, -, hgeometry, -⟩ := onlyNamedCommandsWriteState i s t hexec
  exact hgeometry (.inl (by rw [uninit, init]; decide))

end Sys2Proof.Machine
end

section
/-! SUPPORT. The checksum as the run of its two accumulators, and the two commands that answer it
(spec/41_checksum.md R180 to R185). The hinge is that both accumulators stay bytes, so that packing them into a word
and loading them again as a seed loses nothing. -/

namespace Sys2Proof.Machine

/-! ### The accumulators of a word (R181) -/

/-- The accumulators c0 and c1 a word holds: its low and its high byte. -/
def accumulators (w : BitVec 16) : Nat × Nat := (w.toNat % 256, w.toNat / 256)

theorem accumulators_injective : Function.Injective accumulators := by
  intro v w h
  obtain ⟨hlow, hhigh⟩ := Prod.mk.inj h
  exact BitVec.eq_of_toNat_eq (by omega)

theorem accumulators_le (w : BitVec 16) : accumulators w ≤ (255, 255) :=
  Prod.mk_le_mk.mpr ⟨by omega, by omega⟩

/-- The seed is loaded byte by byte. -/
theorem extractLsb'_eq_accumulators (w : BitVec 16) :
    ((w.extractLsb' 0 8).toNat, (w.extractLsb' 8 8).toNat) = accumulators w := by
  simp only [accumulators, BitVec.extractLsb'_toNat, Nat.shiftRight_eq_div_pow]
  exact Prod.ext (by simp) (Nat.mod_eq_of_lt (by omega))

/-- Packing two bytes and taking them apart again. -/
theorem accumulators_append {c : Nat × Nat} (h : c ≤ (255, 255)) :
    accumulators (BitVec.ofNat 8 c.2 ++ BitVec.ofNat 8 c.1) = c := by
  obtain ⟨hlow, hhigh⟩ := Prod.le_def.mp h
  simp only at hlow hhigh
  have hpacked : (BitVec.ofNat 8 c.2 ++ BitVec.ofNat 8 c.1).toNat = c.2 * 256 + c.1 := by
    rw [BitVec.toNat_append, BitVec.toNat_ofNat, BitVec.toNat_ofNat, Nat.mod_eq_of_lt (by omega),
      Nat.mod_eq_of_lt (by omega), ← Nat.shiftLeft_add_eq_or_of_lt (by omega), Nat.shiftLeft_eq]
  rw [accumulators, hpacked]
  exact Prod.ext (by simp only; omega) (by simp only; omega)

/-! ### The run (R180) -/

@[simp] theorem fletcherRun_nil (c : Nat × Nat) : fletcherRun c [] = c := rfl

@[simp] theorem fletcherRun_cons (c : Nat × Nat) (b : Byte) (bs : List Byte) :
    fletcherRun c (b :: bs) = fletcherRun (fletcherByte c b) bs := rfl

theorem fletcherRun_append (c : Nat × Nat) (a b : List Byte) :
    fletcherRun c (a ++ b) = fletcherRun (fletcherRun c a) b := by
  induction a generalizing c with
  | nil => rfl
  | cons x xs ih => exact ih _

/-- A byte leaves both accumulators reduced, whatever they were. -/
theorem fletcherByte_le (c : Nat × Nat) (b : Byte) : fletcherByte c b ≤ (254, 254) :=
  Prod.mk_le_mk.mpr ⟨by omega, by omega⟩

theorem fletcherRun_le {n : Nat} (hn : 254 ≤ n) {c : Nat × Nat} (hc : c ≤ (n, n)) (data : List Byte) :
    fletcherRun c data ≤ (n, n) := by
  induction data generalizing c with
  | nil => exact hc
  | cons b bs ih => exact ih ((fletcherByte_le c b).trans (Prod.mk_le_mk.mpr ⟨hn, hn⟩))

theorem fletcherRun_le_of_ne_nil {data : List Byte} (h : data ≠ []) (c : Nat × Nat) :
    fletcherRun c data ≤ (254, 254) := by
  obtain ⟨b, bs, rfl⟩ := List.exists_cons_of_ne_nil h
  exact fletcherRun_le le_rfl (fletcherByte_le c b) bs

theorem fletcherByte_fst_modEq (c : Nat × Nat) (b : Byte) : (fletcherByte c b).1 ≡ c.1 + b.toNat [MOD 255] :=
  Nat.mod_modEq _ _

theorem fletcherByte_snd_modEq (c : Nat × Nat) (b : Byte) : (fletcherByte c b).2 ≡ c.2 + (c.1 + b.toNat) [MOD 255] :=
  (Nat.mod_modEq _ _).trans ((fletcherByte_fst_modEq c b).add_left _)

/-- The low accumulator sums the bytes. -/
theorem fletcherRun_fst_modEq (c : Nat × Nat) (data : List Byte) :
    (fletcherRun c data).1 ≡ c.1 + (data.map BitVec.toNat).sum [MOD 255] := by
  induction data generalizing c with
  | nil => rfl
  | cons b bs ih =>
    calc (fletcherRun (fletcherByte c b) bs).1
      _ ≡ (fletcherByte c b).1 + (bs.map BitVec.toNat).sum [MOD 255] := ih _
      _ ≡ c.1 + b.toNat + (bs.map BitVec.toNat).sum [MOD 255] := (fletcherByte_fst_modEq c b).add_right _
      _ = c.1 + ((b :: bs).map BitVec.toNat).sum := by rw [List.map_cons, List.sum_cons, Nat.add_assoc]

/-- The bytes weighted by how often the high accumulator counts each of them. -/
def weightedSum (data : List Byte) : Nat := (data.zipIdx.map fun c => (data.length - c.2) * c.1.toNat).sum

theorem weightedSum_cons (b : Byte) (bs : List Byte) :
    weightedSum (b :: bs) = (bs.length + 1) * b.toNat + weightedSum bs := by
  simp [weightedSum, List.zipIdx_succ, Function.comp_def]

/-- The high accumulator sums the low one over the run. -/
theorem fletcherRun_snd_modEq (c : Nat × Nat) (data : List Byte) :
    (fletcherRun c data).2 ≡ c.2 + data.length * c.1 + weightedSum data [MOD 255] := by
  induction data generalizing c with
  | nil => simp [weightedSum, Nat.ModEq.refl]
  | cons b bs ih =>
    calc (fletcherRun (fletcherByte c b) bs).2
      _ ≡ (fletcherByte c b).2 + bs.length * (fletcherByte c b).1 + weightedSum bs [MOD 255] := ih _
      _ ≡ c.2 + (c.1 + b.toNat) + bs.length * (c.1 + b.toNat) + weightedSum bs [MOD 255] :=
        ((fletcherByte_snd_modEq c b).add ((fletcherByte_fst_modEq c b).mul_left _)).add_right _
      _ = c.2 + (b :: bs).length * c.1 + weightedSum (b :: bs) := by
        rw [weightedSum_cons, List.length_cons]
        ring

/-- After a byte both accumulators are the sums reduced once. -/
theorem fletcherRun_of_ne_nil {data : List Byte} (h : data ≠ []) (c : Nat × Nat) :
    fletcherRun c data =
      ((c.1 + (data.map BitVec.toNat).sum) % 255, (c.2 + data.length * c.1 + weightedSum data) % 255) := by
  obtain ⟨hlow, hhigh⟩ := Prod.le_def.mp (fletcherRun_le_of_ne_nil h c)
  apply Prod.ext
  · exact (Nat.mod_eq_of_lt (Nat.lt_succ_of_le hlow)).symm.trans (fletcherRun_fst_modEq c data)
  · exact (Nat.mod_eq_of_lt (Nat.lt_succ_of_le hhigh)).symm.trans (fletcherRun_snd_modEq c data)

/-- Bytes that are 0 modulo 255 leave cleared accumulators cleared. -/
theorem fletcherRun_zero {data : List Byte} (h : ∀ b ∈ data, b = 0x00 ∨ b = 0xFF) :
    fletcherRun (0, 0) data = (0, 0) := by
  induction data with
  | nil => rfl
  | cons b bs ih =>
    have hbyte : fletcherByte (0, 0) b = (0, 0) := by
      rcases h b List.mem_cons_self with rfl | rfl <;> rfl
    rw [fletcherRun_cons, hbyte, ih fun x hx => h x (List.mem_cons_of_mem _ hx)]

/-! ### The checksum (R181) -/

/-- The checksum holds the accumulators of the run from those of the seed. -/
@[simp] theorem accumulators_fletcher16 (data : List Byte) (seed : BitVec 16) :
    accumulators (fletcher16 data seed) = fletcherRun (accumulators seed) data := by
  rw [fletcher16, extractLsb'_eq_accumulators]
  exact accumulators_append (fletcherRun_le (by decide) (accumulators_le seed) data)

theorem fletcher16_nil (seed : BitVec 16) : fletcher16 [] seed = seed :=
  accumulators_injective (accumulators_fletcher16 [] seed)

theorem accumulators_fletcher16_le {data : List Byte} (h : data ≠ []) (seed : BitVec 16) :
    accumulators (fletcher16 data seed) ≤ (0xFE, 0xFE) :=
  accumulators_fletcher16 data seed ▸ fletcherRun_le_of_ne_nil h _

/-- Settles O27: the checksum of `a` holds the accumulators the run over `b` goes on from. -/
theorem fletcherSeedChaining : Obligations.FletcherSeedChaining := by
  intro a b seed
  apply accumulators_injective
  simp only [accumulators_fletcher16, fletcherRun_append]

/-- Settles O28: both accumulators agree with the sums modulo 255, and after a byte they are reduced. -/
theorem fletcherAsWeightedSums : Obligations.FletcherAsWeightedSums := by
  intro data seed hdata
  have hrun := (accumulators_fletcher16 data seed).trans (fletcherRun_of_ne_nil hdata _)
  exact Prod.mk.inj hrun

/-- Settles O29: the last byte reduces both accumulators, and 0xFF is 0 modulo 255. -/
theorem fletcherRangeFacts : Obligations.FletcherRangeFacts := by
  refine ⟨fun data seed hdata => accumulators_fletcher16_le hdata seed, fun c0 c1 reduced => ?_, fun data h => ?_⟩
  · have hlow : (c0 + 255) % 255 = c0 := by omega
    exact Prod.ext hlow (congrArg (fun c => (c1 + c) % 255) hlow)
  · apply accumulators_injective
    rw [accumulators_fletcher16]
    exact fletcherRun_zero h

/-! ### The commands (R183, R184) -/

/-- Settles O30: the length check, then the checksum widened to a value. -/
theorem ckSumResult : Obligations.CkSumResult := by
  intro seed len payload s
  refine ⟨encodedAs_of_encodeWord rfl, fun wrong => if_pos wrong,
    fun whole => ⟨_, if_neg (not_not.mpr whole), ?_, ?_⟩⟩
  · exact BitVec.toNat_setWidth_of_le (by decide)
  · rintro rfl
    obtain rfl := List.eq_nil_of_length_eq_zero whole
    rw [fletcher16_nil, BitVec.toNat_setWidth_of_le (by decide)]

/-- Settles O31: the length check, then the comparison, which an expected byte 0xFF fails on nonempty data (R185). -/
theorem ckValidResult : Obligations.CkValidResult := by
  intro seed len expected payload s
  refine ⟨encodedAs_of_encodeWord rfl, fun wrong => if_pos wrong,
    fun whole => ⟨_, if_neg (not_not.mpr whole), ?_, ?_, ?_, ?_⟩⟩
  · simp
  · simp
  · intro nonzero byteFF
    have hpayload : payload ≠ [] := by
      rintro rfl
      exact nonzero (BitVec.eq_of_toNat_eq whole.symm)
    refine if_neg fun hmatch => ?_
    obtain ⟨hlow, hhigh⟩ := Prod.mk_le_mk.mp (hmatch ▸ accumulators_fletcher16_le hpayload seed)
    omega
  · rintro rfl
    obtain rfl := List.eq_nil_of_length_eq_zero whole
    simp [fletcher16_nil, eq_comm]

end Sys2Proof.Machine
end

section
/-! SUPPORT. One decoder iteration as a function of the queued bytes: which of its four outcomes it has, the bytes it
takes off the front, and the state it leaves (spec/42_decoder.md R204, R205, R211). -/

namespace Sys2Proof.Machine

/-! ### The iteration on a byte stream -/

/-- The outcome of an iteration on the bytes `q` (R205). -/
def frontOutcome (q : List Byte) : IterOutcome :=
  if q.length < Config.frameLen then .noFrame
  else if q.take 1 ≠ [Config.sync] then .discard
  else if frameValid (q.take Config.frameLen) = false then .drop
  else .accept

/-- How many bytes an iteration takes. -/
def bytesTaken : IterOutcome → Nat
  | .noFrame => 0
  | .discard => 1
  | .drop => Config.frameLen
  | .accept => Config.frameLen

/-- The telemetry registers after an iteration on the bytes `q`: only an accepted frame writes them (R211). -/
def decAfter (noiseTh : BitVec 15) (q : List Byte) (d : DecRegs) : IterOutcome → DecRegs
  | .noFrame => d
  | .discard => d
  | .drop => d
  | .accept => applyFrame noiseTh (q.take Config.frameLen) d

section Stream
variable {q : List Byte}

theorem frontOutcome_of_short (short : q.length < Config.frameLen) : frontOutcome q = .noFrame := if_pos short

section Frame
variable (frame : Config.frameLen ≤ q.length)
include frame

theorem frontOutcome_of_frame :
    frontOutcome q =
      if q.take 1 ≠ [Config.sync] then .discard
      else if frameValid (q.take Config.frameLen) = false then .drop
      else .accept :=
  if_neg (Nat.not_lt.mpr frame)

theorem frontOutcome_ne_noFrame : frontOutcome q ≠ .noFrame := by
  rw [frontOutcome_of_frame frame]
  split_ifs <;> simp

/-- An iteration that finds a frame's length of bytes takes one at least, and none that is not there. -/
theorem bytesTaken_of_frame : 0 < bytesTaken (frontOutcome q) ∧ bytesTaken (frontOutcome q) ≤ q.length := by
  have hpos : 0 < Config.frameLen := by decide
  cases h : frontOutcome q with
  | noFrame => exact absurd h (frontOutcome_ne_noFrame frame)
  | discard => exact ⟨Nat.one_pos, hpos.trans_le frame⟩
  | drop => exact ⟨hpos, frame⟩
  | accept => exact ⟨hpos, frame⟩

/-- The decoder goes on behind the bytes of an iteration with its count and its registers. -/
theorem streamDecode_of_frame (noiseTh : BitVec 15) (fuel : Nat) (c : TickCounts) (d : DecRegs) :
    streamDecode noiseTh (fuel + 1) c d q =
      streamDecode noiseTh fuel (c.count (frontOutcome q)) (decAfter noiseTh q d (frontOutcome q))
        (q.drop (bytesTaken (frontOutcome q))) := by
  rw [streamDecode, if_neg (Nat.not_lt.mpr frame), frontOutcome_of_frame frame]
  split_ifs
  · rfl
  · rfl
  · rfl

end Frame

/-- The decoder stops at fewer bytes than a frame has. -/
theorem streamDecode_of_short (short : q.length < Config.frameLen) (noiseTh : BitVec 15) (fuel : Nat) (c : TickCounts)
    (d : DecRegs) : streamDecode noiseTh fuel c d q = (c, d, q) := by
  cases fuel with
  | zero => rfl
  | succ fuel => rw [streamDecode, if_pos short]

/-- The head of the bytes is SYNC. -/
theorem take_one_eq_sync_iff : q.take 1 = [Config.sync] ↔ q.head? = some 0xFE := by
  cases q <;> simp [Config.sync]

/-- The checksum of the first frame of the bytes in the terms of the bytes. -/
theorem frameValid_take_iff :
    frameValid (q.take Config.frameLen) = true ↔ fletcher16 (q.take 14) 0 = q.getD 15 0 ++ q.getD 14 0 := by
  simp [frameValid, frame16, frameByte, Config.frameLen, List.take_take]

end Stream

/-! ### The iteration on a byte buffer -/

/-- The buffer is initialized and holds bytes, and the machine meets its invariant: where ticks run (R214). -/
structure OnBytes (s : State) : Prop where
  inv : Inv s
  init : s.rb.init = true
  bytes : s.rb.es = 1

/-- The state after an iteration with outcome `r` that takes a byte, with the tick at `tick`. -/
def State.afterIteration (s : State) (r : IterOutcome) (tick : Option TickCounts) : State :=
  { s with
    rb := s.rb.consumed (bytesTaken r), dec := decAfter s.params.noiseTh (contents s) s.dec r, tick := tick }

section OnBytes
variable {s : State} (h : OnBytes s)
include h

theorem OnBytes.es_toNat : s.rb.es.toNat = 1 := by rw [h.bytes]; rfl

/-- On bytes the length counts bytes. -/
theorem OnBytes.length_contents : (contents s).length = s.rb.length := by
  rw [(contents_spec h.inv.ring h.init).1, ← length_mul_es h.inv.ring h.init, h.es_toNat, Nat.mul_one]

/-- Consuming queued bytes answers the front of the queue and leaves what is behind it. -/
theorem OnBytes.consume {n : Nat} (nonzero : 0 < n) (held : n ≤ (contents s).length) :
    consume s n = .ok ((contents s).take n, { s with rb := s.rb.consumed n }) ∧
      contents { s with rb := s.rb.consumed n } = (contents s).drop n := by
  have hocc := (contents_spec h.inv.ring h.init).1
  obtain ⟨⟨out, u⟩, takes⟩ := consume_in_ring_total h.inv.ring h.init
    ((held.trans_eq hocc).trans (occ_le_of_ring h.inv.ring h.init))
  obtain ⟨hqueue, hlen⟩ := contents_consume h.inv h.init nonzero (h.es_toNat ▸ Nat.one_dvd n) (hocc ▸ held) takes
  obtain ⟨-, rfl⟩ := consume_ok takes
  rw [← hqueue, List.take_left' hlen, List.drop_left' hlen]
  exact ⟨takes, rfl⟩

/-- The head of the queue is read where it stands. -/
theorem OnBytes.memRead_head (nonempty : 0 < (contents s).length) :
    memRead s s.rb.rdIdx.toNat 1 = .ok ((contents s).take 1) := by
  obtain ⟨out, reads⟩ := memRead_element_total h.inv.ring h.init
  have hfront := contents_front h.inv.ring h.init (h.length_contents ▸ nonempty.ne') reads
  rw [h.es_toNat] at reads hfront
  rw [reads, hfront]

theorem OnBytes.decIter_of_short (short : (contents s).length < Config.frameLen) : decIter s = .ok (.noFrame, s) :=
  if_pos (h.length_contents ▸ short)

section Frame
variable (frame : Config.frameLen ≤ (contents s).length)
include frame

theorem OnBytes.decIter_of_frame :
    decIter s = .ok (frontOutcome (contents s), s.afterIteration (frontOutcome (contents s)) s.tick) := by
  have hpos : 0 < Config.frameLen := by decide
  have hlength : ¬ s.rb.length < Config.frameLen := h.length_contents ▸ Nat.not_lt.mpr frame
  have hhead := h.memRead_head (hpos.trans_le frame)
  obtain ⟨hbyte, -⟩ := h.consume Nat.one_pos (hpos.trans_le frame)
  obtain ⟨hframe, -⟩ := h.consume hpos frame
  rw [decIter, if_neg hlength, hhead, frontOutcome_of_frame frame]
  simp only [hbyte, hframe]
  split_ifs
  · rfl
  · rfl
  · rfl

/-- An iteration takes its bytes off the front of the queue. -/
theorem OnBytes.contents_afterIteration (tick : Option TickCounts) :
    contents (s.afterIteration (frontOutcome (contents s)) tick) =
      (contents s).drop (bytesTaken (frontOutcome (contents s))) := by
  obtain ⟨nonzero, held⟩ := bytesTaken_of_frame frame
  exact (h.consume nonzero held).2

/-- An iteration that finds a frame's length of bytes shortens the queue. -/
theorem OnBytes.length_afterIteration_lt (tick : Option TickCounts) :
    (contents (s.afterIteration (frontOutcome (contents s)) tick)).length < (contents s).length := by
  obtain ⟨nonzero, held⟩ := bytesTaken_of_frame frame
  rw [h.contents_afterIteration frame, List.length_drop]
  omega

theorem OnBytes.afterIteration (tick : Option TickCounts) :
    OnBytes (s.afterIteration (frontOutcome (contents s)) tick) :=
  ⟨h.inv.after_iteration h.init h.bytes (h.decIter_of_frame frame) tick, h.init, h.bytes⟩

end Frame

/-! ### The commit of a tick -/

theorem OnBytes.tickStep_of_short (short : (contents s).length < Config.frameLen) (c : TickCounts) :
    tickStep c s = .next (respond .command .ok (tickValue c) [] { s with tick := none }) := by
  rw [tickStep, h.decIter_of_short short]

theorem OnBytes.tickStep_of_frame (frame : Config.frameLen ≤ (contents s).length) (c : TickCounts) :
    tickStep c s =
      .next (s.afterIteration (frontOutcome (contents s)) (some (c.count (frontOutcome (contents s))))) := by
  have hr := frontOutcome_ne_noFrame frame
  rw [tickStep, h.decIter_of_frame frame]
  generalize frontOutcome (contents s) = r at hr
  cases r with
  | noFrame => exact absurd rfl hr
  | _ => rfl

theorem OnBytes.execDecTick : execDecTick s = tickStep ⟨0, 0, 0⟩ s := by
  rw [Machine.execDecTick, if_neg (by simp [h.init]), if_neg (by simp [h.bytes])]

end OnBytes

end Sys2Proof.Machine
end

section
/-! SUPPORT. DEC_TICK by its iterations, and a whole tick that no push interrupts (spec/42_decoder.md R204, R205, R212
to R214, spec/70_reset_and_hazards.md R319). -/

namespace Sys2Proof.Machine

/-! ### A whole tick -/

/-- `t` is `s` after a tick that gave `out`: the registers and the queue are those of the decoder and the response
carries the counts. -/
def EndsTick (s t : State) (out : TickCounts × DecRegs × List Byte) : Prop :=
  t = { s with
    rb := { s.rb with rdIdx := t.rb.rdIdx, full := t.rb.full }, dec := out.2.1, tick := none,
    cmdOut := ⟨.ok, tickValue out.1, []⟩ :: s.cmdOut } ∧
  contents t = out.2.2 ∧ (contents t).length < Config.frameLen

/-- Ending a tick after an iteration is ending it before: the iteration writes only what the end of a tick may. -/
theorem EndsTick.of_afterIteration {s t : State} {r : IterOutcome} {tick : Option TickCounts}
    {out : TickCounts × DecRegs × List Byte} (h : EndsTick (s.afterIteration r tick) t out) : EndsTick s t out := h

/-- Where no push waits, a command port with work to do is picked without a turn. -/
theorem pick_command_of_no_push {s : State} (noPush : s.prodIn = []) (ready : cmdReady s = true) :
    pick s = some .command ∧ afterPick s = s := by
  have hprod : prodReady s = false := by simp [prodReady, noPush]
  exact ⟨by simp [pick, hprod, ready], afterPick_of_not_both (by simp [hprod])⟩

/-- Where no push waits a step goes on with the tick in progress. -/
theorem step_of_tick {s : State} {c : TickCounts} (busy : s.tick = some c) (noPush : s.prodIn = []) :
    step s = tickStep c s := by
  obtain ⟨hpick, hafter⟩ := pick_command_of_no_push noPush (by simp [cmdReady, busy])
  rw [step_of_pick hpick, hafter, serve_tick busy]

/-- Where no push waits a step runs the oldest command of an idle command port. -/
theorem step_of_command {s : State} {x : Txn} {xs : List Txn} {i : Instr} (idle : s.tick = none)
    (noPush : s.prodIn = []) (waits : s.cmdIn = x :: xs) (hd : decode .command x.word x.payload = .ok i) :
    step s = exec i { s with cmdIn := xs } := by
  obtain ⟨hpick, hafter⟩ := pick_command_of_no_push noPush (by simp [cmdReady, waits])
  rw [step_of_pick hpick, hafter, serve_command idle waits, runTxn_of_decode hd]

/-- A tick at counts `c` that no push interrupts ends as the decoder does, within one commit per queued byte and one
more, its first commit included. -/
def TickEnds (c : TickCounts) (s : State) (fuel : Nat) : Prop :=
  ∃ u k t, tickStep c s = .next u ∧ k ≤ (contents s).length ∧ steps k u = .next t ∧
    EndsTick s t (streamDecode s.params.noiseTh fuel c s.dec (contents s))

theorem tickEnds_of_short {s : State} (h : OnBytes s) (short : (contents s).length < Config.frameLen) (c : TickCounts)
    (fuel : Nat) : TickEnds c s fuel := by
  rw [TickEnds, streamDecode_of_short short]
  exact ⟨_, 0, _, h.tickStep_of_short short c, Nat.zero_le _, rfl, rfl, rfl, short⟩

theorem tickEnds {s : State} (h : OnBytes s) (noPush : s.prodIn = []) (c : TickCounts) {fuel : Nat}
    (enough : (contents s).length ≤ fuel) : TickEnds c s fuel := by
  induction fuel generalizing s c with
  | zero => exact tickEnds_of_short h (enough.trans_lt (by decide)) c 0
  | succ fuel ih =>
    rcases Nat.lt_or_ge (contents s).length Config.frameLen with short | frame
    · exact tickEnds_of_short h short c _
    · have hfirst := h.tickStep_of_frame frame c
      have hshorter := h.length_afterIteration_lt frame (some (c.count (frontOutcome (contents s))))
      have hafter := h.afterIteration frame (some (c.count (frontOutcome (contents s))))
      obtain ⟨v, k, t, hsecond, hk, hrun, hends⟩ := ih hafter noPush (c.count (frontOutcome (contents s))) (by omega)
      refine ⟨_, k + 1, t, hfirst, by omega, ?_, ?_⟩
      · rw [steps, step_of_tick (s := s.afterIteration _ _) rfl noPush, hsecond]
        exact hrun
      · rw [h.contents_afterIteration frame] at hends
        rw [streamDecode_of_frame frame]
        exact hends.of_afterIteration

/-- Settles O36: the transaction starts a tick, and each of its commits does an iteration of the decoder, which takes a
byte at least, until fewer than a frame are left. -/
theorem tickDecodesTheByteStream : Obligations.TickDecodesTheByteStream := by
  intro s x xs hinv init bytes idle noPush waits hd
  have htaken : OnBytes { s with cmdIn := xs } := ⟨{ hinv with }, init, bytes⟩
  have hstep : step s = tickStep ⟨0, 0, 0⟩ { s with cmdIn := xs } :=
    (step_of_command idle noPush waits hd).trans htaken.execDecTick
  obtain ⟨u, k, t, hfirst, hk, hrun, ht, hqueue, hshort⟩ := tickEnds htaken noPush ⟨0, 0, 0⟩ le_rfl
  refine ⟨k + 1, t, Nat.succ_le_succ hk, ?_, ?_, hqueue, hshort⟩
  · rw [steps, hstep, hfirst]
    exact hrun
  · rw [idle]
    exact ht

/-! ### The iterations -/

/-- A commit of a tick that takes bytes, by the outcome of its iteration. -/
theorem OnBytes.tickStep_of_outcome {s : State} (h : OnBytes s) (frame : Config.frameLen ≤ (contents s).length)
    (c : TickCounts) {r : IterOutcome} (hr : frontOutcome (contents s) = r) :
    tickStep c s = .next (s.afterIteration r (some (c.count r))) ∧
      (s.rb.consumed (bytesTaken r)).rdIdx.toNat = (s.rb.rdIdx.toNat + bytesTaken r) % s.rb.bytesInUse ∧
      contents (s.afterIteration r (some (c.count r))) = (contents s).drop (bytesTaken r) := by
  subst hr
  exact ⟨h.tickStep_of_frame frame c, advance_toNat_of_ring h.inv.ring h.init h.inv.paramsLegal _ _,
    h.contents_afterIteration frame _⟩

/-- Settles O34: each of the four outcomes is one of the front of the queue. -/
theorem decoderIterationResult : Obligations.DecoderIterationResult := by
  intro c s hinv init bytes
  have h : OnBytes s := ⟨hinv, init, bytes⟩
  refine ⟨fun short => h.tickStep_of_short short c, fun frame hhead => ?_, fun frame hhead hsum => ?_,
    fun frame hhead hsum => ?_⟩
  · have hr : frontOutcome (contents s) = .discard := by
      rw [frontOutcome_of_frame frame, if_pos (mt take_one_eq_sync_iff.mp hhead)]
    obtain ⟨hstep, hindex, hqueue⟩ := h.tickStep_of_outcome frame c hr
    exact ⟨_, hstep, rfl, hindex, hqueue⟩
  · have hr : frontOutcome (contents s) = .drop := by
      rw [frontOutcome_of_frame frame, if_neg (not_not.mpr (take_one_eq_sync_iff.mpr hhead)),
        if_pos (eq_false_of_ne_true (mt frameValid_take_iff.mp hsum))]
    obtain ⟨hstep, hindex, hqueue⟩ := h.tickStep_of_outcome frame c hr
    exact ⟨_, hstep, rfl, hindex, hqueue⟩
  · have hr : frontOutcome (contents s) = .accept := by
      rw [frontOutcome_of_frame frame, if_neg (not_not.mpr (take_one_eq_sync_iff.mpr hhead)),
        if_neg (ne_false_of_eq_true (frameValid_take_iff.mpr hsum))]
    obtain ⟨hstep, hindex, hqueue⟩ := h.tickStep_of_outcome frame c hr
    exact ⟨_, hstep, rfl, hindex, hqueue⟩

/-- Settles O35: two checks, and on a byte buffer the iteration of a tick that has counted nothing. -/
theorem decTickResult : Obligations.DecTickResult := by
  intro s
  refine ⟨encodedAs_of_encodeWord rfl, fun uninit => if_pos uninit, fun init hes => ?_, fun hinv init bytes => ?_⟩
  · show execDecTick s = _
    rw [execDecTick, if_neg (by simp [init]), if_pos hes]
  · have h : OnBytes s := ⟨hinv, init, bytes⟩
    refine ⟨fun short => h.execDecTick.trans (h.tickStep_of_short short _), fun frame => ?_⟩
    exact ⟨_, _, h.execDecTick.trans (h.tickStep_of_frame frame _), h.decIter_of_frame frame,
      frontOutcome_ne_noFrame frame, rfl, rfl⟩

/-- Settles O38: the tick is on a byte buffer, where an iteration takes a byte at least. -/
theorem tickGoesOnWhileAFrameIsHeld : Obligations.TickGoesOnWhileAFrameIsHeld := by
  intro s c hinv busy hpick held
  obtain ⟨init, bytes⟩ := hinv.tickOnBytes (by rw [busy]; rfl)
  have h : OnBytes (afterPick s) := ⟨hinv.after_pick, by simpa using init, by simpa using bytes⟩
  have hlength : (contents (afterPick s)).length = s.rb.length := by rw [h.length_contents, afterPick_rb]
  have frame : Config.frameLen ≤ (contents (afterPick s)).length := hlength ▸ held
  have hstep := (step_of_pick hpick).trans (serve_tick ((afterPick_tick s).trans busy))
  refine ⟨_, hstep.trans (h.tickStep_of_frame frame c), rfl, ?_, afterPick_cmdOut s, afterPick_cmdIn s⟩
  rw [← (h.afterIteration frame _).length_contents, ← hlength]
  exact h.length_afterIteration_lt frame _

end Sys2Proof.Machine
end

section
/-! SUPPORT. What a valid frame writes into the telemetry registers, the stall counter along a sequence of frames, and
the value of a tick (spec/42_decoder.md R200, R201, R206 to R212). -/

namespace Sys2Proof.Machine

/-! ### The numbers in a frame (R20, R200, R201) -/

/-- Appending bit vectors puts the left one above the right one. -/
theorem toNat_append_eq_add {m n : Nat} (x : BitVec m) (y : BitVec n) :
    (x ++ y).toNat = 2 ^ n * x.toNat + y.toNat := by
  rw [BitVec.toNat_append, ← Nat.shiftLeft_add_eq_or_of_lt y.isLt, Nat.shiftLeft_eq, Nat.mul_comm]

theorem frame16_toNat (f : List Byte) (i : Nat) :
    (frame16 f i).toNat = (frameByte f i).toNat + 256 * (frameByte f (i + 1)).toNat := by
  rw [frame16, toNat_append_eq_add]
  exact Nat.add_comm _ _

theorem frame32_toNat (f : List Byte) (i : Nat) :
    (frame32 f i).toNat =
      (frameByte f i).toNat + 256 * (frameByte f (i + 1)).toNat + 65536 * (frameByte f (i + 2)).toNat +
        16777216 * (frameByte f (i + 3)).toNat := by
  rw [frame32, toNat_append_eq_add, frame16_toNat f i, frame16_toNat f (i + 2), show i + 2 + 1 = i + 3 from rfl]
  omega

theorem echoSeq_toNat (e : Byte) : (echoSeq e).toNat = e.toNat % 8 := by simp [echoSeq]

theorem echoTag_eq (e : Byte) : echoTag e = decide (e.toNat / 8 % 2 = 1) := by
  rw [echoTag, ← BitVec.testBit_toNat, Nat.testBit_eq_decide_div_mod_eq]

theorem echoId_toNat (e : Byte) : (echoId e).toNat = e.toNat / 16 := by
  have := e.isLt
  simp only [echoId, BitVec.extractLsb'_toNat, Nat.shiftRight_eq_div_pow]
  omega

theorem numericPos_toNat (p : BitVec 16) : (numericPos p).toNat = p.toNat % 32768 := by simp [numericPos]

/-! ### The telemetry registers after a valid frame -/

/-- The echo dispatch by register: the tag selects the timer or the parameter (R208). -/
theorem echoDispatch_eq (e : Byte) (data : Word) (d : DecRegs) :
    echoDispatch e data d =
      { d with
        tlmParamId := if echoTag e then d.tlmParamId else echoId e
        tlmParamData := if echoTag e then d.tlmParamData else data
        rflTimer := if echoTag e then data else d.rflTimer } := by
  unfold echoDispatch
  cases echoTag e <;> rfl

/-- The stall update writes the counter alone (R210). -/
theorem stallUpdate_eq (noiseTh : BitVec 15) (d : DecRegs) :
    stallUpdate noiseTh d =
      { d with
        stallCnt :=
          if d.velocity.toNat < noiseTh.toNat then BitVec.ofNat 8 (min (d.stallCnt.toNat + 1) Config.stallCntMax)
          else 0 } := by
  unfold stallUpdate
  split <;> rfl

/-- Every telemetry register after a valid frame, in the terms of the frame and the registers before it. -/
theorem applyFrame_eq (noiseTh : BitVec 15) (f : List Byte) (d : DecRegs) :
    applyFrame noiseTh f d =
      { tlmType := frameByte f 1
        tlmVoltage := frame16 f 2
        tlmCurrent := frame16 f 4
        tlmPosition := frame16 f 6
        prevPosition := d.tlmPosition
        tlmErrRaw := frameByte f 8
        errLatch := if d.errLatch = 0 then frameByte f 8 else d.errLatch
        tlmSeq := echoSeq (frameByte f 9)
        tlmParamId := if echoTag (frameByte f 9) then d.tlmParamId else echoId (frameByte f 9)
        tlmParamData := if echoTag (frameByte f 9) then d.tlmParamData else frame32 f 10
        rflTimer := if echoTag (frameByte f 9) then frame32 f 10 else d.rflTimer
        velocity := absDiff (numericPos d.tlmPosition) (numericPos (frame16 f 6))
        stallCnt :=
          if (absDiff (numericPos d.tlmPosition) (numericPos (frame16 f 6))).toNat < noiseTh.toNat then
            BitVec.ofNat 8 (min (d.stallCnt.toNat + 1) Config.stallCntMax)
          else 0 } := by
  rw [applyFrame, stallUpdate_eq, echoDispatch_eq, setError_frame, setError_errLatch]
  rfl

/-- Settles O32: each register is a field of the frame or of the registers before it, and the tag of the echo selects
which of the timer and the parameter is written. -/
theorem validFrameUpdatesTelemetry : Obligations.ValidFrameUpdatesTelemetry := by
  intro noiseTh f d b e data
  have he : e = _ := applyFrame_eq noiseTh f d
  have htag : echoTag (frameByte f 9) = decide (b 9 / 8 % 2 = 1) := echoTag_eq _
  rw [he]
  refine ⟨rfl, frame16_toNat f 2, frame16_toNat f 4, rfl, frame16_toNat f 6, rfl, apply_ite _ _ _ _,
    echoSeq_toNat _, fun hparam => ?_, fun htimer => ?_, ?_⟩
  · have hclear : echoTag (frameByte f 9) = false := by simp [htag, hparam]
    simp only [hclear]
    exact ⟨echoId_toNat _, frame32_toNat f 10, rfl⟩
  · have hset : echoTag (frameByte f 9) = true := by simp [htag, htimer]
    simp only [hset]
    exact ⟨frame32_toNat f 10, rfl, rfl⟩
  · simp only [absDiff_toNat, numericPos_toNat, frame16_toNat]
    rfl

/-! ### The stall counter (R210) -/

theorem applyFrame_stallCnt_toNat (noiseTh : BitVec 15) (f : List Byte) (d : DecRegs) :
    (applyFrame noiseTh f d).stallCnt.toNat =
      if (applyFrame noiseTh f d).velocity.toNat < noiseTh.toNat then min (d.stallCnt.toNat + 1) 255 else 0 := by
  rw [applyFrame_eq]
  simp only [Config.stallCntMax]
  split
  · rw [BitVec.toNat_ofNat, Nat.mod_eq_of_lt (by omega)]
  · rfl

/-- The telemetry registers after valid frames, one after the other. -/
def applyFrames (noiseTh : BitVec 15) (d : DecRegs) (fs : List (List Byte)) : DecRegs :=
  fs.foldl (fun d f => applyFrame noiseTh f d) d

theorem applyFrames_cons (noiseTh : BitVec 15) (d : DecRegs) (f : List Byte) (fs : List (List Byte)) :
    applyFrames noiseTh d (f :: fs) = applyFrames noiseTh (applyFrame noiseTh f d) fs := rfl

/-- Frames of low velocity, one after the other, each count once, up to the saturation. -/
theorem stallCnt_toNat_of_low_velocity {noiseTh : BitVec 15} (fs : List (List Byte)) (d : DecRegs)
    (low : ∀ n < fs.length, (applyFrames noiseTh d (fs.take (n + 1))).velocity.toNat < noiseTh.toNat) :
    (applyFrames noiseTh d fs).stallCnt.toNat = min (d.stallCnt.toNat + fs.length) 255 := by
  induction fs generalizing d with
  | nil =>
    have := d.stallCnt.isLt
    show d.stallCnt.toNat = min d.stallCnt.toNat 255
    omega
  | cons f fs ih =>
    have hfirst : (applyFrame noiseTh f d).velocity.toNat < noiseTh.toNat := low 0 (Nat.succ_pos _)
    have hrest := ih (applyFrame noiseTh f d) fun n hn => low (n + 1) (Nat.succ_lt_succ hn)
    rw [applyFrame_stallCnt_toNat, if_pos hfirst] at hrest
    rw [applyFrames_cons, hrest, List.length_cons]
    omega

/-- Settles O33: from 0 the counter is the number of frames up to 255, which is above the limit. -/
theorem stallCounterDebounces : Obligations.StallCounterDebounces := by
  refine ⟨applyFrame_stallCnt_toNat, fun fs s hzero hlimit low => ?_⟩
  have hcount := stallCnt_toNat_of_low_velocity fs s.dec low
  rw [hzero, show (0 : Byte).toNat = 0 from rfl] at hcount
  rw [stopped, decide_eq_true_iff]
  show s.params.stallLimit < (applyFrames s.params.noiseTh s.dec fs).stallCnt.toNat ↔ _
  rw [hcount]
  omega

/-! ### The value of a tick (R212) -/

/-- Settles O37: a saturated count fits its field. -/
theorem tickValuePacksCounts : Obligations.TickValuePacksCounts := by
  intro c
  simp only [tickValue, toNat_append_eq_add, BitVec.toNat_ofNat]
  rw [Nat.mod_eq_of_lt (by omega), Nat.mod_eq_of_lt (by omega), Nat.mod_eq_of_lt (by omega)]
  omega

end Sys2Proof.Machine
end

section
/-! SUPPORT. The derived signals by arithmetic on the registers: the STATUS word and the HookState of a position
(spec/43_telemetry_status.md R240 to R245). -/

namespace Sys2Proof.Machine

/-! ### The STATUS word (R240 to R242, R245) -/

theorem endOfStroke_eq (p : BitVec 16) : endOfStroke p = decide (0x8000 ≤ p.toNat) :=
  BitVec.msb_eq_decide p

theorem atEndStroke_eq (s : State) :
    atEndStroke s = (decide (0x8000 ≤ s.dec.tlmPosition.toNat) && !s.cfg.ignoreProt && stopped s) := by
  rw [atEndStroke, endOfStroke_eq]

theorem protTriggered_eq (s : State) :
    protTriggered s =
      (atEndStroke s && decide (s.params.safetyTh.toNat < s.dec.tlmPosition.toNat % 0x8000)) := by
  rw [protTriggered, numericPos_toNat]

/-- The fields of STATUS do not overlap: a code in bits 6..4 and three flags in bits 2..0. -/
theorem toNat_statusFields (triggered atEnd stopped : Bool) : ∀ code : BitVec 3,
    (code.setWidth 32 <<< 4 ||| bit triggered <<< 2 ||| bit atEnd <<< 1 ||| bit stopped).toNat =
      16 * code.toNat + 4 * triggered.toNat + 2 * atEnd.toNat + stopped.toNat := by
  revert triggered atEnd stopped
  decide

/-- Settles O43: the word is the sum of its fields, and each flag is its comparison. -/
theorem statusWordPacksSignals : Obligations.StatusWordPacksSignals := by
  intro s stoppedNow atEnd triggered
  have hend : atEndStroke s = atEnd := atEndStroke_eq s
  have htriggered : protTriggered s = triggered := by rw [protTriggered_eq, hend]
  rw [statusWord, toNat_statusFields, hend, htriggered]
  rfl

/-! ### The HookState of a position (R243, R244) -/

section HookState
variable {sentinel pos : BitVec 16} {c : CfgRegs}

theorem hookState_of_eq_sentinel (h : pos = sentinel) : hookState sentinel c pos = .uninitialized := if_pos h

variable (present : pos ≠ sentinel)
include present

theorem hookState_of_endOfStroke (h : 0x8000 ≤ pos.toNat) : hookState sentinel c pos = .closed := by
  rw [hookState, if_neg present, if_pos (by simpa [endOfStroke_eq] using h)]

section Numeric
variable (numeric : pos.toNat < 0x8000)
include numeric

/-- Without the end-of-stroke flag the position register is its own numeric position, and the thresholds decide. -/
theorem hookState_of_numeric :
    hookState sentinel c pos =
      if pos.toNat ≤ c.closedTh.toNat then .closed
      else if pos.toNat = c.midTh.toNat then .mid
      else if pos.toNat = c.openTh.toNat then .openState
      else if c.closedTh.toNat < pos.toNat ∧ pos.toNat < c.midTh.toNat then .partiallyClosed
      else if c.midTh.toNat < pos.toNat ∧ pos.toNat < c.openTh.toNat then .partiallyOpen
      else .error := by
  rw [hookState, if_neg present, if_neg (by simpa [endOfStroke_eq] using numeric), numericPos_toNat,
    Nat.mod_eq_of_lt numeric]

theorem hookState_of_le_closed (h : pos.toNat ≤ c.closedTh.toNat) : hookState sentinel c pos = .closed := by
  rw [hookState_of_numeric present numeric, if_pos h]

variable (above : c.closedTh.toNat < pos.toNat)
include above

theorem hookState_of_eq_mid (h : pos.toNat = c.midTh.toNat) : hookState sentinel c pos = .mid := by
  rw [hookState_of_numeric present numeric, if_neg (by omega), if_pos h]

theorem hookState_of_eq_open (notMid : pos.toNat ≠ c.midTh.toNat) (h : pos.toNat = c.openTh.toNat) :
    hookState sentinel c pos = .openState := by
  rw [hookState_of_numeric present numeric, if_neg (by omega), if_neg notMid, if_pos h]

theorem hookState_of_lt_mid (notOpen : pos.toNat ≠ c.openTh.toNat) (h : pos.toNat < c.midTh.toNat) :
    hookState sentinel c pos = .partiallyClosed := by
  rw [hookState_of_numeric present numeric, if_neg (by omega), if_neg h.ne, if_neg notOpen, if_pos ⟨above, h⟩]

variable (aboveMid : c.midTh.toNat < pos.toNat)
include aboveMid

theorem hookState_of_lt_open (h : pos.toNat < c.openTh.toNat) : hookState sentinel c pos = .partiallyOpen := by
  rw [hookState_of_numeric present numeric, if_neg (by omega), if_neg aboveMid.ne', if_neg h.ne, if_neg (by omega),
    if_pos ⟨aboveMid, h⟩]

theorem hookState_of_gt_open (h : c.openTh.toNat < pos.toNat) : hookState sentinel c pos = .error := by
  rw [hookState_of_numeric present numeric, if_neg (by omega), if_neg aboveMid.ne', if_neg h.ne', if_neg (by omega),
    if_neg (by omega)]

end Numeric

end HookState

/-- The ranges R244 lists for the reset thresholds, each by the row of `hookState` it falls under. -/
theorem hookCode_at_reset_thresholds (pos : BitVec 16) (ignoreProt : Bool) :
    (hookCode (hookState 0xFFFF ⟨1, 13393, 17967, ignoreProt⟩ pos)).toNat =
      if pos.toNat ≤ 1 then 1
      else if pos.toNat ≤ 13392 then 2
      else if pos.toNat = 13393 then 3
      else if pos.toNat ≤ 17966 then 4
      else if pos.toNat = 17967 then 5
      else if pos.toNat ≤ 0x7FFF then 6
      else if pos.toNat ≤ 0xFFFE then 1
      else 0 := by
  have present (h : pos.toNat ≤ 0xFFFE) : pos ≠ 0xFFFF := by bv_omega
  generalize hc : (⟨1, 13393, 17967, ignoreProt⟩ : CfgRegs) = c
  have hclosed : c.closedTh.toNat = 1 := by rw [← hc]; rfl
  have hmid : c.midTh.toNat = 13393 := by rw [← hc]; rfl
  have hopen : c.openTh.toNat = 17967 := by rw [← hc]; rfl
  split_ifs
  · rw [hookState_of_le_closed (present (by omega)) (by omega) (by omega)]; rfl
  · rw [hookState_of_lt_mid (present (by omega)) (by omega) (by omega) (by omega) (by omega)]; rfl
  · rw [hookState_of_eq_mid (present (by omega)) (by omega) (by omega) (by omega)]; rfl
  · rw [hookState_of_lt_open (present (by omega)) (by omega) (by omega) (by omega) (by omega)]; rfl
  · rw [hookState_of_eq_open (present (by omega)) (by omega) (by omega) (by omega) (by omega)]; rfl
  · rw [hookState_of_gt_open (present (by omega)) (by omega) (by omega) (by omega) (by omega)]; rfl
  · rw [hookState_of_endOfStroke (present (by omega)) (by omega)]; rfl
  · rw [hookState_of_eq_sentinel (by bv_omega)]; rfl

/-- Settles O44: a row of R244 for each clause. -/
theorem hookStateOfEveryPosition : Obligations.HookStateOfEveryPosition := by
  refine ⟨fun sentinel pos c => ⟨hookState_of_eq_sentinel, hookState_of_endOfStroke, fun present numeric =>
    ⟨hookState_of_le_closed present numeric, fun above => ⟨?_, ?_, ?_, ?_, ?_⟩⟩⟩,
    hookCode_at_reset_thresholds, fun s => rfl, rfl, fun h => ?_⟩
  · exact fun hmid => hookState_of_eq_mid present numeric above (congrArg _ hmid)
  · exact fun notMid hopen =>
      hookState_of_eq_open present numeric above (mt BitVec.eq_of_toNat_eq notMid) (congrArg _ hopen)
  · exact fun notOpen => hookState_of_lt_mid present numeric above (mt BitVec.eq_of_toNat_eq notOpen)
  · exact hookState_of_lt_open present numeric above
  · exact hookState_of_gt_open present numeric above
  · cases h <;> decide

end Sys2Proof.Machine
end

section
/-! SUPPORT. The register map and the two commands that read and write it (spec/10_state.md R59,
spec/43_telemetry_status.md R246, R247). -/

namespace Sys2Proof.Machine

/-! ### The register map -/

theorem bit_eq_ofNat (b : Bool) : bit b = BitVec.ofNat 32 b.toNat := by cases b <;> rfl

theorem flagsWord_eq_ofNat (s : State) :
    flagsWord s = BitVec.ofNat 32 (2 * s.rb.init.toNat + s.rb.full.toNat) := by
  unfold flagsWord
  cases s.rb.init <;> cases s.rb.full <;> rfl

/-- The register map finds every register by its number. -/
@[simp] theorem regOfNum_num (r : RegName) : regOfNum r.num = some r := by cases r <;> decide

/-- What the register map finds has that number. -/
theorem num_of_regOfNum {n : BitVec 16} {r : RegName} (h : regOfNum n = some r) : r.num = n := by
  have := List.find?_some h
  simpa using this

/-- Looking a number up in a table of registers with values is finding the register, then taking its value. -/
theorem lookup_map_num (f : RegName → Word) (n : BitVec 16) (rs : List RegName) :
    (rs.map fun r => (r.num, f r)).lookup n = (rs.find? fun r => r.num == n).map f := by
  induction rs with
  | nil => rfl
  | cons r rs ih =>
    rw [List.map_cons, List.lookup_cons, List.find?_cons, ih, BEq.comm]
    cases r.num == n <;> rfl

/-- Settles O45: the table of R59 is the register map with the read values. -/
theorem regRdReadsTheRegisterMap : Obligations.RegRdReadsTheRegisterMap := by
  intro reg s table
  refine ⟨encodedAs_of_encodeWord rfl, ?_⟩
  have htable : table = RegName.all.map fun r => (r.num, readReg s r) := by
    simp [table, RegName.all, RegName.num, readReg, bit_eq_ofNat, flagsWord_eq_ofNat, BitVec.signExtend, hookStateOf]
  have hlookup : table.lookup reg = (regOfNum reg).map (readReg s) := by
    rw [htable, lookup_map_num]
    rfl
  rw [hlookup]
  show execRegRd reg s = _
  unfold execRegRd
  cases regOfNum reg <;> rfl

/-! ### REG_WR -/

/-- The four writable registers by number, with the range of each (R59, R247). -/
theorem regAccepts_iff (r : RegName) (val : Word) :
    regAccepts r val = true ↔
      (0x30 ≤ r.num.toNat ∧ r.num.toNat ≤ 0x32 ∧ val.toNat < 0x10000) ∨
        (r.num.toNat = 0x33 ∧ val.toNat ≤ 1) := by
  cases r <;> simp [regAccepts, RegName.num]

theorem execRegWr_of_accepts {r : RegName} {val : Word} (h : regAccepts r val = true) (s : State) :
    execRegWr r.num val s = .next (respond .command .ok 0 [] { s with cfg := writeReg r val s.cfg }) := by
  simp [execRegWr, h]

theorem execRegWr_of_refused {reg : BitVec 16} {val : Word}
    (h : ∀ r, regOfNum reg = some r → regAccepts r val = false) (s : State) :
    execRegWr reg val s = .next (fail .command .invalid s) := by
  unfold execRegWr
  split
  · rfl
  · next r known => exact if_pos (h r known)

/-- A 16-bit configuration register takes a value in range whole. -/
theorem toNat_setWidth_of_lt_two_pow_16 {val : Word} (h : val.toNat < 0x10000) :
    (val.setWidth 16).toNat = val.toNat := by
  rw [BitVec.toNat_setWidth, Nat.mod_eq_of_lt h]

theorem toNat_low_bit {val : Word} (h : val.toNat ≤ 1) : (val.getLsbD 0).toNat = val.toNat := by
  rw [← BitVec.testBit_toNat]
  interval_cases val.toNat <;> rfl

/-- Settles O46: a register that accepts the value holds it, and every other number and value is refused. -/
theorem regWrResult : Obligations.RegWrResult := by
  intro reg val s
  refine ⟨encodedAs_of_encodeWord rfl, ?_, ?_, ?_, ?_, fun refused => ?_⟩
  · rintro rfl hval
    have accepts : regAccepts .cfgClosedTh val = true := decide_eq_true hval
    exact ⟨_, execRegWr_of_accepts accepts s, toNat_setWidth_of_lt_two_pow_16 hval, rfl⟩
  · rintro rfl hval
    have accepts : regAccepts .cfgMidTh val = true := decide_eq_true hval
    exact ⟨_, execRegWr_of_accepts accepts s, toNat_setWidth_of_lt_two_pow_16 hval, rfl⟩
  · rintro rfl hval
    have accepts : regAccepts .cfgOpenTh val = true := decide_eq_true hval
    exact ⟨_, execRegWr_of_accepts accepts s, toNat_setWidth_of_lt_two_pow_16 hval, rfl⟩
  · rintro rfl hval
    have accepts : regAccepts .cfgIgnoreProt val = true := decide_eq_true hval
    exact ⟨_, execRegWr_of_accepts accepts s, toNat_low_bit hval, rfl⟩
  · refine execRegWr_of_refused (fun r known => eq_false_of_ne_true fun accepts => ?_) s
    have hrange := (regAccepts_iff r val).mp accepts
    rw [num_of_regOfNum known] at hrange
    bv_omega

end Sys2Proof.Machine
end

section
/-! SUPPORT. The error latch commands, the ready-for-lifting query and the protection recovery counter
(spec/43_telemetry_status.md R248 to R252, spec/42_decoder.md R207). -/

namespace Sys2Proof.Machine

/-! ### The error latch -/

/-- Settles O47: ERR_SET raises its code, which writes the latch alone, and ERR_CLEAR writes 0 there. -/
theorem errorLatchCommands : Obligations.ErrorLatchCommands := by
  refine ⟨fun code s => ⟨?_, _, rfl, ?_, ?_, ?_⟩, fun s => ⟨encodedAs_of_encodeWord rfl, _, rfl, rfl⟩⟩
  · rw [BitVec.ofNat_toNat]
    exact encodedAs_of_encodeWord rfl
  · exact congrArg (fun d => respond .command .ok 0 [] { s with dec := d }) (setError_frame code s.dec)
  · exact fun clear => (setError_errLatch code s.dec).trans (if_pos clear)
  · exact fun latched => (setError_errLatch code s.dec).trans (if_neg latched)

/-! ### The staircase -/

section Staircase
variable {p : Params} {t : Word}

theorem rflStep_of_hi_le (h : p.rflHi.toNat ≤ t.toNat) : rflStep p t = p.rflLo := if_pos h

variable (belowHi : t.toNat < p.rflHi.toNat)
include belowHi

theorem rflStep_of_lo_le (h : p.rflLo.toNat ≤ t.toNat) : rflStep p t = 0 := by
  rw [rflStep, if_neg (Nat.not_le.mpr belowHi), if_pos h]

/-- Below both plateaus the timer holds or is cleared, as RFL_BELOW_LO says; 0 stays 0 either way. -/
theorem rflStep_of_lt_lo (h : t.toNat < p.rflLo.toNat) : rflStep p t = if p.rflBelowLo = .clear then 0 else t := by
  rw [rflStep, if_neg (Nat.not_le.mpr belowHi), if_neg (Nat.not_le.mpr h)]
  by_cases hzero : t = 0
  · rw [if_neg (by simp [hzero]), hzero, ite_self]
  · simp only [ne_eq, hzero, not_false_eq_true, true_and]

end Staircase

/-- At the foot of the staircase the timer stays. -/
theorem rflStep_zero {p : Params} (loPos : 0 < p.rflLo.toNat) (loBelowHi : p.rflLo.toNat < p.rflHi.toNat) :
    rflStep p 0 = 0 := by
  rw [rflStep_of_lt_lo (t := 0) (loPos.trans loBelowHi) loPos, ite_self]

/-- Settles O49: the answer is of the timer before the step, and the step is the one of its range. -/
theorem rflQueryResult : Obligations.RflQueryResult := by
  intro s
  refine ⟨encodedAs_of_encodeWord rfl, _, _, rfl, rfl, ?_, rflStep_of_hi_le, rflStep_of_lo_le, rflStep_of_lt_lo⟩
  by_cases hzero : s.dec.rflTimer = 0
  · simp [hzero]
  · have hnat : s.dec.rflTimer.toNat ≠ 0 := fun h => hzero (BitVec.eq_of_toNat_eq h)
    rw [if_pos hzero, if_neg hnat]
    rfl

/-- `s` after a query has answered `ready` and left the timer at `timer`. -/
def State.rflAnswered (s : State) (ready timer : Word) : State :=
  { s with dec := { s.dec with rflTimer := timer }, cmdOut := ⟨.ok, ready, []⟩ :: s.cmdOut }

theorem exec_rflQuery_of_ne_zero {s : State} {timer : Word} (running : s.dec.rflTimer ≠ 0)
    (hstep : rflStep s.params s.dec.rflTimer = timer) : exec .rflQuery s = .next (s.rflAnswered 1 timer) := by
  show execRflQuery s = _
  rw [execRflQuery, if_pos running, hstep]
  rfl

theorem exec_rflQuery_of_eq_zero {s : State} {timer : Word} (done : s.dec.rflTimer = 0)
    (hstep : rflStep s.params s.dec.rflTimer = timer) : exec .rflQuery s = .next (s.rflAnswered 0 timer) := by
  show execRflQuery s = _
  rw [execRflQuery, if_neg (not_not.mpr done), hstep]
  rfl

/-- Settles O50: the timer steps to RFL_LO, then to 0, and stays there. -/
theorem rflStaircaseHasTwoPlateaus : Obligations.RflStaircaseHasTwoPlateaus := by
  intro s loPos loBelowHi high
  have first : exec .rflQuery s = .next (s.rflAnswered 1 s.params.rflLo) :=
    exec_rflQuery_of_ne_zero (by bv_omega) (rflStep_of_hi_le high)
  have second : exec .rflQuery (s.rflAnswered 1 s.params.rflLo) =
      .next ((s.rflAnswered 1 s.params.rflLo).rflAnswered 1 0) :=
    exec_rflQuery_of_ne_zero (show s.params.rflLo ≠ 0 by bv_omega) (rflStep_of_lo_le loBelowHi le_rfl)
  have third : exec .rflQuery ((s.rflAnswered 1 s.params.rflLo).rflAnswered 1 0) =
      .next (((s.rflAnswered 1 s.params.rflLo).rflAnswered 1 0).rflAnswered 0 0) :=
    exec_rflQuery_of_eq_zero rfl (rflStep_zero loPos loBelowHi)
  refine ⟨_, ?_, rfl⟩
  simp only [execAll, first, second, third]
  rfl

/-! ### The protection recovery counter -/

/-- Settles O51: the increment of a value below 2 does not wrap. -/
theorem recoveryCounterCommands : Obligations.RecoveryCounterCommands := by
  intro s
  refine ⟨encodedAs_of_encodeWord rfl, encodedAs_of_encodeWord rfl, fun legal => ⟨_, rfl, ?_, rfl⟩, _, rfl, rfl⟩
  show (if s.prc.toNat < 2 then s.prc + 1 else s.prc).toNat = min (s.prc.toNat + 1) 2
  split
  · bv_omega
  · omega

end Sys2Proof.Machine
end

section
/-! SUPPORT. A command that fails writes its response and nothing else (spec/60_exceptions.md R281, R282). -/

namespace Sys2Proof.Machine

/-! ### How a command can end -/

/-- The response a port gives is its newest. -/
theorem responses_respond (p : Port) (st : Status) (v : Word) (d : List Byte) (s : State) :
    responses p (respond p st v d s) = ⟨st, v, d⟩ :: responses p s := by
  cases p with
  | producer => rfl
  | command => rfl

/-- What a command on port `p` can make of `s`: it succeeds, whatever it writes; it fails and its response is its status
alone; RB_LENGTH fails with LEN_FAIL; it goes on as a tick and gives no response; it stops. -/
inductive FailsAlone (p : Port) (isLength : Prop) (s : State) : Result → Prop where
  | succeeds (v : Word) (d : List Byte) (u : State) : FailsAlone p isLength s (.next (respond p .ok v d u))
  | fails (st : Status) : FailsAlone p isLength s (.next (fail p st s))
  | lengthFails (length : isLength) : FailsAlone p isLength s (.next (respond p .uninit Config.lenFail [] s))
  | goesOn {t : State} (same : responses p t = responses p s) : FailsAlone p isLength s (.next t)
  | stops (e : Fault) : FailsAlone p isLength s (.fault e)

section
variable {p : Port} {isLength : Prop} {s : State}

/-- A check that fails the command comes before every write. -/
theorem FailsAlone.guard {c : Prop} {_ : Decidable c} {st : Status} {r : Result} (h : FailsAlone p isLength s r) :
    FailsAlone p isLength s (if c then .next (fail p st s) else r) := by
  split
  · exact .fails st
  · exact h

theorem FailsAlone.mono {isLength' : Prop} {r : Result} (h : FailsAlone p isLength s r) (imp : isLength → isLength') :
    FailsAlone p isLength' s r := by
  cases h with
  | succeeds v d u => exact .succeeds v d u
  | fails st => exact .fails st
  | lengthFails length => exact .lengthFails (imp length)
  | goesOn same => exact .goesOn same
  | stops e => exact .stops e

/-- A response other than OK is a failure's. -/
theorem FailsAlone.of_not_ok {t : State} {r : Response} (h : FailsAlone p isLength s (.next t))
    (answered : responses p t = r :: responses p s) (failed : r.status ≠ .ok) :
    t = respond p r.status r.value r.data s ∧ r.data = [] ∧
      (r.value = 0 ∨ (r.status = .uninit ∧ r.value = 0xFFFFFFFF ∧ isLength)) := by
  cases h with
  | succeeds v d u =>
    obtain ⟨rfl, -⟩ := List.cons.inj ((responses_respond ..).symm.trans answered)
    exact absurd rfl failed
  | fails st =>
    obtain ⟨rfl, -⟩ := List.cons.inj ((responses_respond ..).symm.trans answered)
    exact ⟨rfl, rfl, .inl rfl⟩
  | lengthFails length =>
    obtain ⟨rfl, -⟩ := List.cons.inj ((responses_respond ..).symm.trans answered)
    exact ⟨rfl, rfl, .inr ⟨rfl, rfl, length⟩⟩
  | goesOn same => exact absurd (answered.symm.trans same) (List.cons_ne_self _ _)

/-! ### The commands -/

theorem execRbInit_failsAlone (es : BitVec 16) (cap : Word) : FailsAlone .command isLength s (execRbInit es cap s) := by
  refine .guard (.guard ?_)
  cases memWrite s 0 (List.replicate (cap.toNat * es.toNat) 0) with
  | error e => exact .stops e
  | ok u => exact .succeeds ..

theorem execRbPush_failsAlone (count : Word) (payload : List Byte) :
    FailsAlone .producer isLength s (execRbPush count payload s) := by
  refine .guard (.guard (.guard (.guard ?_)))
  cases copyIn s payload with
  | error e => exact .stops e
  | ok u => exact .succeeds ..

theorem execRbPoll_failsAlone (count : Word) : FailsAlone .command isLength s (execRbPoll count s) := by
  refine .guard (.guard (.guard (.guard ?_)))
  cases consume s (count.toNat * s.rb.es.toNat) with
  | error e => exact .stops e
  | ok taken => exact .succeeds ..

theorem execRbPeek_failsAlone : FailsAlone .command isLength s (execRbPeek s) := by
  refine .guard (.guard ?_)
  cases memRead s s.rb.rdIdx.toNat s.rb.es.toNat with
  | error e => exact .stops e
  | ok out => exact .succeeds ..

/-- A commit of a tick cannot fail: it answers OK or leaves the tick in progress. -/
theorem tickStep_failsAlone (c : TickCounts) : FailsAlone .command isLength s (tickStep c s) := by
  unfold tickStep
  split
  · exact .stops _
  · exact .succeeds ..
  · next hiter => exact .goesOn (decIter_samePorts hiter).cmdOut

theorem execRegRd_failsAlone (reg : BitVec 16) : FailsAlone .command isLength s (execRegRd reg s) := by
  unfold execRegRd
  split
  · exact .fails .invalid
  · exact .succeeds ..

theorem execRegWr_failsAlone (reg : BitVec 16) (val : Word) :
    FailsAlone .command isLength s (execRegWr reg val s) := by
  unfold execRegWr
  split
  · exact .fails .invalid
  · exact .guard (.succeeds ..)

theorem execRbLength_failsAlone (length : isLength) : FailsAlone .command isLength s (execRbLength s) := by
  unfold execRbLength
  split
  · exact .lengthFails length
  · exact .succeeds ..

end

theorem exec_failsAlone (i : Instr) (s : State) : FailsAlone i.port (i = .rbLength) s (exec i s) := by
  cases i with
  | rbInit es cap => exact execRbInit_failsAlone es cap
  | rbReset => exact .guard (.succeeds ..)
  | rbPush count payload => exact execRbPush_failsAlone count payload
  | rbPoll count => exact execRbPoll_failsAlone count
  | rbPeek => exact execRbPeek_failsAlone
  | rbLength => exact execRbLength_failsAlone rfl
  | ckSum seed len payload => exact .guard (.succeeds ..)
  | ckValid seed len expected payload => exact .guard (.succeeds ..)
  | decTick => exact .guard (.guard (tickStep_failsAlone _))
  | regRd reg => exact execRegRd_failsAlone reg
  | regWr reg val => exact execRegWr_failsAlone reg val
  | errSet code => exact .succeeds ..
  | errClear => exact .succeeds ..
  | rflQuery => exact .succeeds ..
  | prcAdvance => exact .succeeds ..
  | prcReset => exact .succeeds ..

/-! ### The transactions -/

/-- A refused transaction fails, with LEN_FAIL for a payload on RB_LENGTH before RB_INIT (R281). -/
theorem reject_failsAlone (p : Port) (e : DecodeError) (s : State) :
    FailsAlone p (e = .strayPayload .rbLength) s (.next (reject p e s)) := by
  cases e with
  | unknownOpcode => exact .fails .illegal
  | reservedBits => exact .fails .illegal
  | wrongPort => exact .fails .illegal
  | strayPayload i =>
    simp only [reject, uninitValue_eq]
    split_ifs with _ hlength
    · exact .lengthFails (congrArg _ hlength)
    · exact .fails .uninit
    · exact .fails .invalid

/-- The word of a command refused for its payload is that command's. -/
theorem word_of_decode_stray {p : Port} {w : CmdWord} {payload : List Byte} {i : Instr}
    (h : decode p w payload = .error (.strayPayload i)) : w = encodeWord i := by
  unfold decode at h
  split at h
  · cases h
  · next op _ =>
    split_ifs at h with hmatch
    · cases h
    · cases h
    · cases h
      exact ((matches_iff_encodeWord_operands op w []).mp (not_not.mp hmatch)).symm

theorem runTxn_failsAlone (p : Port) (x : Txn) (s : State) :
    FailsAlone p (x.word = encodeWord .rbLength) s (runTxn p x s) := by
  unfold runTxn
  split
  · next e hd =>
    refine (reject_failsAlone p e s).mono ?_
    rintro rfl
    exact word_of_decode_stray hd
  · next i hd =>
    obtain ⟨hport, hencode⟩ := encodeOfDecodeIsIdentity p x.word x.payload i hd
    subst hport
    refine (exec_failsAlone i s).mono ?_
    rintro rfl
    exact (congrArg Txn.word hencode).symm

/-- Settles O25: every check of a command comes before its first write, and RB_LENGTH has one word. -/
theorem failedCommandsChangeNothing : Obligations.FailedCommandsChangeNothing := by
  intro p x s t r hrun answered failed
  exact (hrun ▸ runTxn_failsAlone p x s).of_not_ok answered failed

end Sys2Proof.Machine
end

section
/-! SUPPORT. The machine at power-on, and a byte buffer smaller than a frame (spec/70_reset_and_hazards.md R310,
R316, spec/10_state.md R59). -/

namespace Sys2Proof.Machine

/-! ### A buffer smaller than a frame (R316) -/

/-- A buffer of bytes holds no frame when its capacity is below one. -/
theorem OnBytes.short_of_cap_lt {s : State} (h : OnBytes s) (small : s.rb.cap.toNat < Config.frameLen) :
    (contents s).length < Config.frameLen :=
  calc (contents s).length = s.rb.length := h.length_contents
    _ ≤ s.rb.cap.toNat := length_le_cap h.inv.ring h.init
    _ < Config.frameLen := small

/-- A full buffer refuses every push of whole elements. -/
theorem execRbPush_of_full {s : State} (hi : RbInv s.params s.rb s.mem) (init : s.rb.init = true)
    (full : s.rb.full = true) {count : Word} {payload : List Byte} (nonzero : count ≠ 0)
    (whole : payload.length = count.toNat * s.rb.es.toNat) :
    execRbPush count payload s = .next (fail .producer .overflow s) := by
  refine execRbPush_of_overflow init nonzero whole ?_
  rw [free_of_full hi init full]
  bv_omega

/-- Settles O39: the first iteration finds no frame, and a full buffer has no room. -/
theorem smallBufferNeverDecodes : Obligations.SmallBufferNeverDecodes := by
  intro s hinv init bytes idle small
  have h : OnBytes s := ⟨hinv, init, bytes⟩
  refine ⟨?_, fun full count payload nonzero whole => ?_⟩
  · have hidle : { s with tick := none } = s := by rw [← idle]
    calc exec .decTick s = tickStep ⟨0, 0, 0⟩ s := h.execDecTick
      _ = .next (respond .command .ok (tickValue ⟨0, 0, 0⟩) [] { s with tick := none }) :=
        h.tickStep_of_short (h.short_of_cap_lt small) _
      _ = .next (respond .command .ok 0 [] s) := by rw [hidle]; rfl
  · exact execRbPush_of_full hinv.ring init full nonzero (by rw [h.es_toNat, Nat.mul_one, whole])

/-! ### The invariant at power-on (R310) -/

/-- The parameters of Config are legal: the type of the free storage size bounds it (R10). -/
theorem params_wf : Config.params.wf :=
  ⟨Nat.le_add_left 16 _, Nat.add_lt_add_right Config.storageBeyondMin.isLt 16⟩

/-- Settles O11: the case of `Reachable.inv` at power-on, and reset is power-on with legal parameters. -/
theorem invariantAtPowerOn : Obligations.InvariantAtPowerOn :=
  ⟨fun _ legal => inv_powerOn legal, inv_powerOn params_wf⟩

/-! ### The registers at power-on (R59, R310) -/

section PowerOn
variable (p : Params)

/-- No stall count is at the limit yet. -/
theorem stopped_powerOn : stopped (State.powerOn p) = false := decide_eq_false (Nat.not_lt_zero _)

theorem atEndStroke_powerOn : atEndStroke (State.powerOn p) = false := by
  rw [atEndStroke, stopped_powerOn, Bool.and_false]

theorem protTriggered_powerOn : protTriggered (State.powerOn p) = false := by
  rw [protTriggered, atEndStroke_powerOn, Bool.false_and]

/-- The position is the sentinel, whatever that is. -/
theorem hookStateOf_powerOn : hookStateOf (State.powerOn p) = .uninitialized := hookState_of_eq_sentinel rfl

theorem flagsWord_powerOn : flagsWord (State.powerOn p) = 0 := flagsWord_eq_ofNat _

theorem statusWord_powerOn : statusWord (State.powerOn p) = 0 := by
  rw [statusWord, hookStateOf_powerOn, protTriggered_powerOn, atEndStroke_powerOn, stopped_powerOn]
  rfl

end PowerOn

/-! ### Answers without data -/

/-- The result is the next state in which port `p` has given one response more than in `s`, and that one without
data. -/
inductive AnswersWithoutData (p : Port) (s : State) : Result → Prop where
  | answer (st : Status) (v : Word) {u : State} (same : responses p u = responses p s) :
      AnswersWithoutData p s (.next (respond p st v [] u))

theorem AnswersWithoutData.of_eq {p : Port} {s : State} {r : Result} {st : Status} {v : Word}
    (h : r = .next (respond p st v [] s)) : AnswersWithoutData p s r := h ▸ .answer st v rfl

/-- Where the port has given no response before, that answer is its only one. -/
theorem AnswersWithoutData.only_response {p : Port} {s : State} {r : Result} (h : AnswersWithoutData p s r)
    (silent : responses p s = []) : ∃ t a, r = .next t ∧ responses p t = [a] ∧ a.data = [] := by
  cases h with
  | answer st v same => exact ⟨_, _, rfl, by rw [responses_respond, same, silent], rfl⟩

/-- A check that fails the command gives no data. -/
theorem AnswersWithoutData.guard {p : Port} {s : State} {c : Prop} {_ : Decidable c} {st : Status} {r : Result}
    (h : AnswersWithoutData p s r) : AnswersWithoutData p s (if c then .next (fail p st s) else r) := by
  split
  · exact .answer st 0 rfl
  · exact h

theorem execRbInit_answersWithoutData (es : BitVec 16) (cap : Word) (s : State) :
    AnswersWithoutData .command s (execRbInit es cap s) := by
  by_cases legal : LegalGeometry es cap s.params
  · exact execRbInit_of_legal legal ▸ .answer .ok 0 rfl
  · exact .of_eq (execRbInit_of_illegal legal)

theorem execRegRd_answersWithoutData (reg : BitVec 16) (s : State) :
    AnswersWithoutData .command s (execRegRd reg s) := by
  unfold execRegRd
  split
  · exact .answer .invalid 0 rfl
  · exact .answer .ok _ rfl

theorem execRegWr_answersWithoutData (reg : BitVec 16) (val : Word) (s : State) :
    AnswersWithoutData .command s (execRegWr reg val s) := by
  unfold execRegWr
  split
  · exact .answer .invalid 0 rfl
  · exact .guard (.answer .ok 0 rfl)

theorem execDecTick_of_uninit {s : State} (uninit : s.rb.init = false) :
    execDecTick s = .next (fail .command .uninit s) := if_pos uninit

/-- Before RB_INIT no command stops or gives data: RB_POLL and RB_PEEK, which alone could, are refused. -/
theorem exec_answersWithoutData_of_uninit {s : State} (uninit : s.rb.init = false) (i : Instr) :
    AnswersWithoutData i.port s (exec i s) := by
  cases i with
  | rbInit es cap => exact execRbInit_answersWithoutData es cap s
  | rbReset => exact .of_eq (execRbReset_of_uninit uninit)
  | rbPush count payload => exact .of_eq (execRbPush_of_uninit uninit)
  | rbPoll count => exact .of_eq (execRbPoll_of_uninit uninit)
  | rbPeek => exact .of_eq (execRbPeek_of_uninit uninit)
  | rbLength => exact .of_eq (execRbLength_of_uninit uninit)
  | ckSum seed len payload => exact .guard (.answer .ok _ rfl)
  | ckValid seed len expected payload => exact .guard (.answer .ok _ rfl)
  | decTick => exact .of_eq (execDecTick_of_uninit uninit)
  | regRd reg => exact execRegRd_answersWithoutData reg s
  | regWr reg val => exact execRegWr_answersWithoutData reg val s
  | errSet code => exact .answer .ok 0 rfl
  | errClear => exact .answer .ok 0 rfl
  | rflQuery => exact .answer .ok _ rfl
  | prcAdvance => exact .answer .ok 0 rfl
  | prcReset => exact .answer .ok 0 rfl

/-- Settles O52: the registers one by one, the signals from the position and the stall count, and the commands on an
uninitialized buffer. -/
theorem powerOnValues : Obligations.PowerOnValues := by
  intro p s
  refine ⟨fun r => ?_, stopped_powerOn p, atEndStroke_powerOn p, protTriggered_powerOn p, hookStateOf_powerOn p,
    fun _ => rfl, fun i => ?_⟩
  · cases r with
    | tlmPosition => exact (BitVec.ofNat_toNat ..).symm
    | prevPosition => exact (BitVec.ofNat_toNat ..).symm
    | cfgClosedTh => exact (BitVec.ofNat_toNat ..).symm
    | cfgMidTh => exact (BitVec.ofNat_toNat ..).symm
    | cfgOpenTh => exact (BitVec.ofNat_toNat ..).symm
    | rbFlags => exact flagsWord_powerOn p
    | status => exact statusWord_powerOn p
    | hookState => exact congrArg (fun h => (hookCode h).setWidth 32) (hookStateOf_powerOn p)
    | _ => rfl
  · have silent : responses i.port s = [] := by cases i.port <;> rfl
    exact (exec_answersWithoutData_of_uninit rfl i).only_response silent

end Sys2Proof.Machine
end
